-- ==== Sys2Proof/Word.lean ====
section
/-! DEFINITION. The words of the block: an input byte, a register-select code, a width flag, an
output register identifier (00_scope.md R6), and the opcode byte pair (R11). All are unsigned (R8)
and bit 0 is the least significant bit (R7). -/

namespace Sys2Proof

/-- One byte of the pair: `BYTE_BITS` = 8 (R6). -/
abbrev Byte := BitVec 8

/-- A register-select code, the row key of the table: `CODE_BITS` = 3 (R6). -/
abbrev Code := BitVec 3

/-- The width flag, the column key of the table: `W_BITS` = 1 (R6); 0 is byte, 1 is word (R39). -/
abbrev WidthFlag := BitVec 1

/-- A register identifier on an output port: `REG_ID_BITS` = 4 (R6, R16). -/
abbrev RegId := BitVec 4

/-- The opcode byte pair `(b0, b1)` (R11): `b0` is the first, higher-order byte and `b1` the second,
lower-order byte (R28). -/
structure Pair where
  b0 : Byte
  b1 : Byte
  deriving DecidableEq, Repr

end Sys2Proof
end

