-- ==== Sys2Proof/Syntax.lean ====
section
/-! DEFINITION. The registers the decoder names (10_state.md R15) and the instruction value it
produces (R17). One constructor per row of the opcode table: the table has one row, MOV. -/

namespace Sys2Proof

/-- The sixteen register identifiers of R15, in the order in which R16 numbers them: the 8-bit class,
then the 16-bit class. They are pure names; no value is stored in any of them (R14). -/
inductive Register where
  | AL | CL | DL | BL | AH | CH | DH | BH
  | AX | CX | DX | BX | SP | BP | SI | DI
  deriving DecidableEq, Repr

/-- The two width classes of R15. -/
inductive Width where
  | byte
  | word
  deriving DecidableEq, Repr

/-- `width(r)` of R15. -/
def Register.width : Register → Width
  | .AL | .CL | .DL | .BL | .AH | .CH | .DH | .BH => .byte
  | .AX | .CX | .DX | .BX | .SP | .BP | .SI | .DI => .word

/-- The instruction value (R17): the one variant is `Move(destination, source)`, destination first.
The type itself puts no width constraint on the two registers (R18). -/
inductive Instr where
  | mov (destination source : Register)
  deriving DecidableEq, Repr

end Sys2Proof
end

