-- ==== Sys2Proof/Config.lean ====
section
/-! DEFINITION. What is fixed for the hardware (00_scope.md R6) and the one parameter the spec leaves
open, `T_SETTLE` (70_reset_and_hazards.md R83, D23). -/

namespace Sys2Proof

/-- `INSN_BYTES`: every instruction is exactly 2 bytes (R6, R37). -/
def Config.insnBytes : Nat := 2

/-- `T_SETTLE`, the settling time of the combinational path (R83). The source gives no figure and no
rule reads it, so it has no body and nothing in the model depends on it (log entry 7). -/
opaque Config.tSettle : Nat

/-- The shape of the register resolution table (R19): `TABLE_ROWS` = 8 rows, one for each
register-select code, of `TABLE_COLS` = 2 registers, one for each width flag (R6). -/
abbrev Table := Vector (Vector Register 2) 8

/-- What a violated table index records (60_exceptions.md R68): the offending code and width flag as
given, unreduced. -/
structure InvariantViolation where
  code : Nat
  w : Nat
  deriving DecidableEq, Repr

end Sys2Proof
end

