-- ==== Sys2Proof/WellFormed.lean ====
section
/-! DEFINITION. Which instruction values the encoding admits: the two operands of the one format share
the width flag (30_encoding.md R42), so they are of one width class. A Move of two widths can be
written down (10_state.md R18) and is not well formed. -/

namespace Sys2Proof

/-- Both registers belong to one width class (R42, R62). -/
abbrev Instr.WellFormed : Instr → Prop
  | .mov destination source => destination.width = source.width

end Sys2Proof
end

