-- ==== Sys2Proof/Decode.lean ====
section
/-! DEFINITION. The decoder: the contents of the register resolution table (10_state.md R19), the
field extractor (41_opcode_field_extractor.md), the table read in its hardware and its checked form
(40_register_resolution_table.md), and the decode that joins them (42_instruction_decoder.md R60).
After it the reference encoder (30_encoding.md R49).

No pair is illegal or reserved (R45), so the decode of a pair answers an instruction for every pair;
what is rejected by name is a table index outside its range (`InvariantViolation`, R53). -/

namespace Sys2Proof

/-! ## The register resolution table -/

/-- The contents of the table (R19): row = register-select code, column 0 = 8-bit form, column 1 =
16-bit form. -/
def rrtContents : Table :=
  #v[#v[.AL, .AX],
     #v[.CL, .CX],
     #v[.DL, .DX],
     #v[.BL, .BX],
     #v[.AH, .SP],
     #v[.CH, .BP],
     #v[.DH, .SI],
     #v[.BH, .DI]]

/-- LOOKUP, `RRT(code, w)` (R52): the hardware's read port, whose 3-bit and 1-bit operands are always
in range. -/
def rrt (table : Table) (code : Code) (w : WidthFlag) : Register :=
  (table[code.toNat]'code.isLt)[w.toNat]'w.isLt

/-- `RRT_id(code, w) = {w, code}` (R16, R52): the identifier wired straight from the fields. -/
def rrtId (code : Code) (w : WidthFlag) : RegId := w ++ code

/-- `RRT_checked(code, w)` (R53): the read of a model whose operands are natural numbers. An operand
out of range is rejected with both operands as given, never wrapped. -/
def rrtChecked (table : Table) (code w : Nat) : Except InvariantViolation Register :=
  if h : code < 8 ∧ w < 2 then .ok ((table[code]'h.1)[w]'h.2)
  else .error { code := code, w := w }

/-! ## The field extractor -/

/-- The three internal signals that the extractor drives (R24, R55). -/
structure Fields where
  w : WidthFlag
  dstCode : Code
  srcCode : Code
  deriving DecidableEq, Repr

/-- EXTRACT (R56), by the exact masks and the shift of R38. -/
def extract (p : Pair) : Fields :=
  { w := (p.b0 &&& 0b00000001#8).setWidth 1
    dstCode := (p.b1 &&& 0b00000111#8).setWidth 3
    srcCode := ((p.b1 &&& 0b00111000#8) >>> 3).setWidth 3 }

/-! ## The decode -/

/-- DECODE (R60) on the hardware's own signals: two reads of one table with one width flag,
destination first in the result. -/
def decodeWith (table : Table) (p : Pair) : Instr :=
  let f := extract p
  .mov (rrt table f.dstCode f.w) (rrt table f.srcCode f.w)

/-- `Decode(b0, b1)` (R60): the decode with the table's fixed contents (R20). -/
def decode (p : Pair) : Instr := decodeWith rrtContents p

/-- The two checked reads of a decode with natural-number signals, the destination read first (R71). -/
def moveOfCodes (table : Table) (dstCode srcCode w : Nat) : Except InvariantViolation Instr :=
  match rrtChecked table dstCode w with
  | .error v => .error v
  | .ok destination =>
    match rrtChecked table srcCode w with
    | .error v => .error v
    | .ok source => .ok (.mov destination source)

/-- The decode through the checked table read (R57: the widened signals are fed to `RRT_checked`). The
machine's step runs this form, so that the fault of R68 is there to be proved unreachable (R69). -/
def decodeChecked (table : Table) (p : Pair) : Except InvariantViolation Instr :=
  let f := extract p
  moveOfCodes table f.dstCode.toNat f.srcCode.toNat f.w.toNat

/-! ## The pattern and the 16-bit view of a pair -/

/-- The pair whose 16-bit view is `n`: byte 0 is bits 15:8 and byte 1 bits 7:0 (R7, R28). -/
def Pair.ofWord (n : Nat) : Pair :=
  { b0 := BitVec.ofNat 8 (n / 256), b1 := BitVec.ofNat 8 n }

/-- The 16-bit view of a pair, `W = b0 * 256 + b1` (R7). -/
def Pair.toWord (p : Pair) : Nat := p.b0.toNat * 256 + p.b1.toNat

/-- The pair with the pattern `xxxxxxxw xxsssddd` of R38: the width flag and the two codes in their
places, `u0` and `u1` in the nine bits that the decoder does not read. -/
def Pair.ofFields (w : WidthFlag) (src dst : Code) (u0 : BitVec 7) (u1 : BitVec 2) : Pair :=
  { b0 := u0 ++ w, b1 := u1 ++ src ++ dst }

/-- The pair that a table row's word stands for: the bits from `nbits` up are zero. -/
def Pair.ofTableWord (nbits w : Nat) : Pair := Pair.ofWord (w % 2 ^ nbits)

/-- The decoder's reading of a word as the opcode table numbers it (`word_view` of its row). No
instruction is longer than 16 bits (R37). -/
def decodeTableWord (nbits w : Nat) : Option Instr :=
  if nbits ≤ 16 then some (decode (Pair.ofTableWord nbits w)) else none

/-! ## The reference encoder (outside the block) -/

/-- A pair in canonical form (R46): `b0 = 0x88 | w` and `b1[7:6] = 0b11`. The block never checks it. -/
abbrev Pair.Canonical (p : Pair) : Prop :=
  p.b0 = 0x88#8 ||| (p.b0 &&& 0b00000001#8) ∧ p.b1.extractLsb' 6 2 = 0b11#2

/-- The cell of the table that holds a register: its row and its column (R19, R49). -/
def Register.position : Register → Code × WidthFlag
  | .AL => (0, 0) | .AX => (0, 1)
  | .CL => (1, 0) | .CX => (1, 1)
  | .DL => (2, 0) | .DX => (2, 1)
  | .BL => (3, 0) | .BX => (3, 1)
  | .AH => (4, 0) | .SP => (4, 1)
  | .CH => (5, 0) | .BP => (5, 1)
  | .DH => (6, 0) | .SI => (6, 1)
  | .BH => (7, 0) | .DI => (7, 1)

/-- Why the reference encoder refuses (R49): raised by `encode` alone, on a Move whose registers have
different widths, of which no pair is the encoding. Safe: no bytes are answered. -/
inductive EncodeRefusal where
  | mixedWidth (destination source : Register)
  deriving DecidableEq, Repr

/-- The reference encoder `Encode` (R49), a fixture outside the block (log entry 8). -/
def encode : Instr → Except EncodeRefusal Pair
  | .mov destination source =>
    if destination.width ≠ source.width then .error (.mixedWidth destination source)
    else
      let w : Byte := if destination.width = .word then 1 else 0
      let dc : Byte := destination.position.1.setWidth 8
      let sc : Byte := source.position.1.setWidth 8
      .ok { b0 := 0b10001000#8 ||| w, b1 := 0b11000000#8 ||| (sc <<< 3) ||| dc }

end Sys2Proof
end

