-- ==== Sys2Proof/Machine/State.lean ====
section
/-! DEFINITION. The state of the machine and its value after reset. The block has no mutable state
(10_state.md R13): its record is the constant table and nothing else (R19, R26). The host's step maps a
state to a state, so beside the block State holds what passes between it and its surroundings: the pair
presented, and the value that the evaluation of that very pair answered (log entry 1). The output ports
are not stored; they are a function of the present inputs (R25, `State.outDst` and `State.outSrc`).
There is no program counter (R22), no flag or control register (R23), no register value (R14), no memory
(20_memory.md R27), no trap or interrupt state (60_exceptions.md R72 to R78), and so no field for them. -/

namespace Sys2Proof.Machine

/-- All that the block stores (R13, R26). -/
structure Block where
  /-- The register resolution table, a ROM of 8 rows and 2 columns (R19 to R21). -/
  rrt : Table
  deriving DecidableEq, Repr

/-- The block with what passes between it and its surroundings. -/
structure State where
  /-- The block's own record: the table. -/
  block : Block
  /-- Input port `in_b0`: byte 0 of the pair presented (R24). -/
  inB0 : Byte
  /-- Input port `in_b1`: byte 1 of the pair presented (R24). -/
  inB1 : Byte
  /-- What the evaluation of the presented pair answered to the caller; none while that pair has not
  been evaluated. No storage of the block (log entry 1). -/
  result : Option Instr
  deriving DecidableEq, Repr

/-- The one fault of the block (60_exceptions.md R67). -/
inductive Fault where
  /-- `InvariantViolation(code, w)` (R68): raised by the checked table read alone, on a code outside 0
  to 7 or a width flag outside 0 and 1; fatal, it carries no instruction (R70). Safe: the machine
  stops and no substitute value is answered. No pair reaches it (R69). -/
  | invariantViolation (v : InvariantViolation)
  deriving DecidableEq, Repr

/-- Why the model gives an instruction no meaning. -/
inductive Refusal where
  /-- An instruction of the opcode table without a meaning yet: raised by an arm of `exec` alone. Safe:
  the machine stops. No arm raises it; the table's one instruction has its meaning. -/
  | notModelled (mnemonic : String)
  deriving DecidableEq, Repr

/-- The machine right after power-up. The table holds its fixed contents at all times (R26, R79, R81).
The spec gives the input ports no value; all-zero inputs are a DESIGN CHOICE (log entry 2). Nothing has
been evaluated. -/
def State.reset : State :=
  { block := { rrt := rrtContents }, inB0 := 0, inB1 := 0, result := none }

end Sys2Proof.Machine
end

