-- ==== Sys2Proof/Machine/Operands.lean ====
section
/-! DEFINITION. The one operand form of the block, a register, as it stands on an output port
(10_state.md R16). There is no immediate, displacement or memory operand (30_encoding.md R42). -/

namespace Sys2Proof

/-- The identifier a register is driven as: `reg_id = {w, code}` of the cell that holds it (R16). -/
def Register.regId (r : Register) : RegId := rrtId r.position.1 r.position.2

/-- The register that an identifier names; every one of the sixteen values names one (R16). -/
def Register.ofRegId (id : RegId) : Register :=
  rrt rrtContents (id.extractLsb' 0 3) (id.extractLsb' 3 1)

end Sys2Proof
end

