-- ==== Sys2Proof/Machine/Ops.lean ====
section
/-! DEFINITION. The block's evaluation and ports, what a caller does with them, and the raising of its
one fault. There is no load or store (20_memory.md R30) and no register read or write (10_state.md R14),
so no operation for them. -/

namespace Sys2Proof.Machine

/-- The block's step as R13 has it, "a function from the input pair to an output or a fault": the decode
through the block's table. -/
def Block.eval (b : Block) (p : Pair) : Except InvariantViolation Instr := decodeChecked b.rrt p

/-- The pair on the input ports, byte 0 first (R24, R28). -/
def State.pair (s : State) : Pair := { b0 := s.inB0, b1 := s.inB1 }

/-- Output port `out_dst` (R24): the identifier of the table cell that the destination code and the
width flag of the present inputs select, and of nothing earlier (R25). -/
def State.outDst (s : State) : RegId :=
  (rrt s.block.rrt (extract s.pair).dstCode (extract s.pair).w).regId

/-- Output port `out_src` (R24, R25), of the source code and the same width flag. -/
def State.outSrc (s : State) : RegId :=
  (rrt s.block.rrt (extract s.pair).srcCode (extract s.pair).w).regId

/-- The instruction value that a consumer reads from the two output ports: the variant is always Move
(R24: no kind output), destination first (R17). -/
def State.output (s : State) : Instr :=
  .mov (Register.ofRegId s.outDst) (Register.ofRegId s.outSrc)

/-- The upstream collaborator presents a pair: both bytes together (20_memory.md R29). The outputs
follow at once (R25), and no result of an earlier pair stays. -/
def State.present (s : State) (p : Pair) : State :=
  { s with inB0 := p.b0, inB1 := p.b1, result := none }

/-- The evaluation answers an instruction value to the caller ("Decoder emits Instruction value", R59). -/
def State.emit (s : State) (i : Instr) : State := { s with result := some i }

/-- Raising the block's fault (60_exceptions.md R70, R72): a fatal halt is the whole of it. No state is
saved, there is no handler and no mode, and nothing returns from it (R73). -/
def raiseViolation (v : InvariantViolation) : Host.Outcome State Fault Refusal :=
  .fault (.invariantViolation v)

end Sys2Proof.Machine
end

