-- ==== Sys2Proof/Machine/Move.lean ====
section
/-! DEFINITION. The move family: the one instruction of the opcode table, MOV register, register. -/

namespace Sys2Proof.Machine

/-- MOV register, register (42_instruction_decoder.md R60). To this block the meaning of the
instruction is its decode: the value `Move(destination, source)` is emitted. No register value is read
or written; the spec gives the move no execution (R63; log entry 3). -/
def execMov (destination source : Register) (s : State) : Host.Outcome State Fault Refusal :=
  .next (s.emit (.mov destination source))

end Sys2Proof.Machine
end

