-- ==== Sys2Proof/Machine/Dispatch.lean ====
section
/-! DEFINITION. One arm per instruction of the opcode table (10_state.md R18, R64: no wildcard). -/

namespace Sys2Proof.Machine

def exec (i : Instr) (s : State) : Host.Outcome State Fault Refusal :=
  match i with
  | .mov destination source => Sys2Proof.Machine.execMov destination source s

end Sys2Proof.Machine
end

