-- ==== Sys2Proof/Machine/Step.lean ====
section
/-! DEFINITION. One step: one evaluation of the block at the pair presented (70_reset_and_hazards.md
R83, R84: decode is one atomic evaluation at stable inputs). -/

namespace Sys2Proof.Machine

/-- The block evaluates the pair on its input ports and the value is emitted; a violated table index
would halt the block (R70). -/
def step (s : State) : Host.Outcome State Fault Refusal :=
  match s.block.eval s.pair with
  | .ok i => exec i s
  | .error v => raiseViolation v

/-- The state with an instruction, given as the opcode table numbers its bits, presented on the input
ports: the next step decodes and emits exactly it (log entry 6). -/
def State.withFetchWord (s : State) (nbits w : Nat) : State :=
  s.present (Pair.ofTableWord nbits w)

end Sys2Proof.Machine
end

