-- ==== Sys2Proof/Machine/Stream.lean ====
section
/-! DEFINITION. The reference stream adapter (20_memory.md R35, R36): a fixture OUTSIDE the block, so
none of it stands in State. First `DecodeStream` as R35 writes it, over the decode alone; then the
same adapter driving the block itself, a pair a step (log entry 9). -/

namespace Sys2Proof.Machine

/-- Why the adapter stops. None of these is a fault of the block. -/
inductive AdapterFault where
  /-- `TrailingByte(n)` (R35): raised by the adapter on a stream of odd length `n`, before any pair is
  decoded. Safe: nothing is answered. -/
  | trailingByte (n : Nat)
  /-- The block halted with its fault while the adapter drove it. Safe, and reached from no pair (R69). -/
  | blockFault (f : Fault)
  /-- The block refused while the adapter drove it. Safe; no arm of `exec` refuses. -/
  | blockRefusal (r : Refusal)
  deriving DecidableEq, Repr

/-- The decodes of a stream's pairs in order, the earlier byte of each pair being its byte 0 (R35). -/
def decodePairs : List Byte → List Instr
  | [] => []
  | [_] => []
  | b0 :: b1 :: rest => decode { b0 := b0, b1 := b1 } :: decodePairs rest

/-- `DecodeStream(S)` (R35). -/
def decodeStream (S : List Byte) : Except AdapterFault (List Instr) :=
  if S.length % 2 = 1 then .error (.trailingByte S.length) else .ok (decodePairs S)

/-- The adapter with the block it drives: the stream, the byte offset (R36: a plain natural number) and
the values collected so far, oldest first. -/
structure Adapter where
  driven : State
  stream : List Byte
  offset : Nat
  out : List Instr
  deriving DecidableEq, Repr

/-- The adapter before its first pair: an odd stream is rejected (R35), the offset is 0 (R36). -/
def Adapter.start (S : List Byte) (driven : State) : Except AdapterFault Adapter :=
  if S.length % 2 = 1 then .error (.trailingByte S.length)
  else .ok { driven := driven, stream := S, offset := 0, out := [] }

/-- One pair: present the two bytes at the offset, let the block evaluate, collect the value it
emitted, and advance by 2 (R36). Past the end of the stream nothing happens. -/
def Adapter.step (a : Adapter) : Except AdapterFault Adapter :=
  match a.stream[a.offset]?, a.stream[a.offset + 1]? with
  | some b0, some b1 =>
    match Machine.step (a.driven.present { b0 := b0, b1 := b1 }) with
    | .next t =>
      .ok { a with driven := t, offset := a.offset + Config.insnBytes, out := a.out ++ t.result.toList }
    | .fault f => .error (.blockFault f)
    | .refused r => .error (.blockRefusal r)
  | some _, none => .error (.trailingByte a.stream.length)
  | none, _ => .ok a

/-- `k` pairs, stopping at the first fault. -/
def Adapter.run : Nat → Adapter → Except AdapterFault Adapter
  | 0, a => .ok a
  | k + 1, a =>
    match a.step with
    | .ok b => Adapter.run k b
    | .error f => .error f

end Sys2Proof.Machine
end

