-- ==== Sys2Proof/Safety.lean ====
section
/-! DEFINITION. What counts as a safe state and a safe step of the block, in the terms claims use. -/

namespace Sys2Proof.Machine

/-- The table holds its fixed contents, as it does at all times on the hardware (10_state.md R19, R20,
R26). -/
abbrev State.TableOk (s : State) : Prop := s.block.rrt = rrtContents

/-- The value that the present inputs decode to, by the bits that R25 names: the destination is the cell
`(in_b1[2:0], in_b0[0])` and the source the cell `(in_b1[5:3], in_b0[0])`. -/
def State.moveOfInputs (s : State) : Instr :=
  .mov (rrt rrtContents (s.inB1.extractLsb' 0 3) (s.inB0.extractLsb' 0 1))
    (rrt rrtContents (s.inB1.extractLsb' 3 3) (s.inB0.extractLsb' 0 1))

/-- A result, where there is one, is that of the present inputs. -/
abbrev State.ResultOk (s : State) : Prop :=
  s.result = none ∨ s.result = some s.moveOfInputs

/-- The invariant of the block: the ROM is intact and no result of other inputs stands. -/
abbrev State.Inv (s : State) : Prop := s.TableOk ∧ s.ResultOk

/-- A safe step answers a next state: no fault and no refusal (60_exceptions.md R69, R70). -/
def SafeStep (s : State) : Prop := ∃ t, step s = .next t

end Sys2Proof.Machine
end

