-- ==== Sys2Proof/Certificates/Slice0/Obligations.lean ====
section
/-! DEFINITION. The statements for the provers, each from the rules of the spec that its docstring
cites. A bit or field of a byte is written with `extractLsb'` (first its lowest bit, then its width),
so that no statement borrows the decoder's own masks. -/

open Sys2Proof Sys2Proof.Machine

/-! ## The step and the instruction -/

/-- A step runs the decoded instruction: with the table intact, when the pair on the input ports
decodes to `i`, the step is `exec` of `i` at that state, with nothing added around it. -/
def Obligations.StepRunsTheDecodedInstruction : Prop :=
  ∀ (s : State) (i : Instr), s.TableOk → decode s.pair = i → step s = exec i s

/-- MOV completes for every two registers, of one width or of two, in every state: it answers the next
state in which its value is emitted and nothing else differs. That emitting the value is the whole of the
instruction's meaning is the model's reading of R60 and R63 (log entry 3); for a Move of two widths, of
which no rule says what the block does, the effect is the model's choice (log entry 10). -/
def Obligations.ExecMovEmitsTheMove : Prop :=
  ∀ (destination source : Register) (s : State),
    exec (.mov destination source) s =
      .next { block := s.block, inB0 := s.inB0, inB1 := s.inB1,
              result := some (.mov destination source) }

/-- The identifiers of any two registers, of one width or of two, read back as their Move, destination
first (R16, R17); and with the table intact, what a step emits is what a consumer reads from the two
output ports. That a step emits the value as a result of its own is the model's reading (log entries 1
and 3), and that a Move of two widths has a place on the ports is its choice (log entry 10). -/
def Obligations.EmittedMoveReadsBackFromThePorts : Prop :=
  (∀ destination source : Register,
    Instr.mov (Register.ofRegId destination.regId) (Register.ofRegId source.regId) =
      .mov destination source) ∧
  (∀ s : State, s.TableOk → ∃ t, step s = .next t ∧ t.result = some t.output ∧
    t.output = .mov (Register.ofRegId t.outDst) (Register.ofRegId t.outSrc))

/-- Frame and R20: no instruction, no step and no presented input changes the table, which is all that
the block stores (R13), and neither an instruction nor a step changes the inputs or the output ports. -/
def Obligations.TableAndInputsAreNeverWritten : Prop :=
  (∀ (i : Instr) (s t : State), exec i s = .next t →
    t.block = s.block ∧ t.inB0 = s.inB0 ∧ t.inB1 = s.inB1 ∧ t.outDst = s.outDst ∧
      t.outSrc = s.outSrc) ∧
  (∀ s t : State, step s = .next t →
    t.block = s.block ∧ t.inB0 = s.inB0 ∧ t.inB1 = s.inB1 ∧ t.outDst = s.outDst ∧
      t.outSrc = s.outSrc) ∧
  (∀ (s : State) (p : Pair), (s.present p).block = s.block)

/-! ## The outputs -/

/-- R25: in every state with the table intact, evaluated or not, the outputs are `{in_b0[0],
in_b1[2:0]}` and `{in_b0[0], in_b1[5:3]}`, the identifiers of the two cells read; so they are a function
of the present inputs alone, and two decodes of one pair give one value. -/
def Obligations.OutputsAreTheWiresOfThePresentInputs : Prop :=
  (∀ s : State, s.TableOk →
    s.outDst = s.inB0.extractLsb' 0 1 ++ s.inB1.extractLsb' 0 3 ∧
    s.outSrc = s.inB0.extractLsb' 0 1 ++ s.inB1.extractLsb' 3 3) ∧
  (∀ (code : Code) (w : WidthFlag), (rrt rrtContents code w).regId = w ++ code) ∧
  (∀ (s : State) (p : Pair), s.TableOk →
    (s.present p).outDst = p.b0.extractLsb' 0 1 ++ p.b1.extractLsb' 0 3 ∧
    (s.present p).outSrc = p.b0.extractLsb' 0 1 ++ p.b1.extractLsb' 3 3) ∧
  (∀ s s' t t' : State, s.TableOk → s'.TableOk → s.pair = s'.pair →
    step s = .next t → step s' = .next t' → t.result = t'.result ∧ t.output = t'.output)

/-- Two instances of the block with one table and one pair on their inputs step to the same result and
the same outputs, whatever results stood before; the table may hold anything. -/
def Obligations.InstancesWithOnePairAgree : Prop :=
  ∀ s s' : State, s.block = s'.block → s.pair = s'.pair →
    ∃ t t', step s = .next t ∧ step s' = .next t' ∧ t.result = t'.result ∧
      t.outDst = t'.outDst ∧ t.outSrc = t'.outSrc

/-- A pair decoded before leaves no trace: after evaluating `q`, presenting `p` gives the very state that
presenting `p` gives without it, and so the same step. -/
def Obligations.EarlierPairLeavesNoTrace : Prop :=
  ∀ (s t : State) (p q : Pair), step (s.present q) = .next t →
    t.present p = s.present p ∧ step (t.present p) = step (s.present p)

/-- Holding a pair on the inputs holds the result and the outputs: any further number of evaluations
ends in the state that the first one gave. -/
def Obligations.HeldPairHoldsTheOutputs : Prop :=
  ∀ (k : Nat) (s : State), Sys2Proof.core.run (k + 1) s = step s

/-! ## The one fault -/

/-- R69: no pair reaches the fault, through any table contents; every step of every state, and so every
run, answers a next state. -/
def Obligations.NoPairReachesTheFault : Prop :=
  (∀ (table : Table) (p : Pair) (v : InvariantViolation), decodeChecked table p ≠ .error v) ∧
  (∀ (k : Nat) (s : State), ∃ t, Sys2Proof.core.run k s = .next t) ∧
  (∀ (s : State) (f : Fault), step s ≠ .fault f)

/-- R53: the checked read answers the table's cell in range, and out of range rejects with the code and
width flag as given, unreduced. -/
def Obligations.CheckedReadRejectsOutOfRange : Prop :=
  (∀ (table : Table) (code w : Nat) (hc : code < 8) (hw : w < 2),
    rrtChecked table code w = .ok table[code][w]) ∧
  (∀ (table : Table) (code w : Nat), (code > 7 ∨ w > 1) →
    rrtChecked table code w = .error { code := code, w := w })

/-- R71: a code and a width flag both out of range raise one violation recording both; when both reads
of a decode would fault, the destination read's fault is the one reported; and no pair shows the order. -/
def Obligations.DestinationReadFaultsFirst : Prop :=
  (∀ (table : Table) (code w : Nat), code > 7 → w > 1 →
    rrtChecked table code w = .error { code := code, w := w }) ∧
  (∀ (table : Table) (dst src w : Nat) (v v' : InvariantViolation),
    rrtChecked table dst w = .error v → rrtChecked table src w = .error v' →
    moveOfCodes table dst src w = .error { code := dst, w := w }) ∧
  (∀ (table : Table) (p : Pair), ∃ i, decodeChecked table p = .ok i)

/-- The source read's fault is reported when the destination read alone succeeds. -/
def Obligations.SourceReadFaultIsReported : Prop :=
  ∀ (table : Table) (dst src w : Nat), dst ≤ 7 → w ≤ 1 → src > 7 →
    moveOfCodes table dst src w = .error { code := src, w := w }

/-- The checked natural-number decode refines the hardware's: over any table contents it answers what
the 3-bit and 1-bit ports answer. -/
def Obligations.CheckedDecodeEqualsPortDecode : Prop :=
  ∀ (table : Table) (p : Pair), decodeChecked table p = .ok (decodeWith table p)

/-! ## The table and the register identifiers -/

/-- R19 at reset: the sixteen cells of the table, by the code and the width flag that read them. -/
def Obligations.ResetTableHoldsTheSixteenRegisters : Prop :=
  ([0, 1, 2, 3, 4, 5, 6, 7].map fun code => rrtChecked State.reset.block.rrt code 0) =
    [.ok .AL, .ok .CL, .ok .DL, .ok .BL, .ok .AH, .ok .CH, .ok .DH, .ok .BH] ∧
  ([0, 1, 2, 3, 4, 5, 6, 7].map fun code => rrtChecked State.reset.block.rrt code 1) =
    [.ok .AX, .ok .CX, .ok .DX, .ok .BX, .ok .SP, .ok .BP, .ok .SI, .ok .DI]

/-- R54: the table is complete, injective, and its columns are the two width classes. -/
def Obligations.TableIsCompleteAndInjective : Prop :=
  (∀ code w : Nat, code ≤ 7 → w ≤ 1 → ∃ r, rrtChecked rrtContents code w = .ok r) ∧
  (∀ (c1 c2 : Code) (w1 w2 : WidthFlag),
    rrt rrtContents c1 w1 = rrt rrtContents c2 w2 ↔ c1 = c2 ∧ w1 = w2) ∧
  (∀ code : Code, (rrt rrtContents code 0).width = .byte ∧ (rrt rrtContents code 1).width = .word)

/-- R16: the sixteen identifiers, by the listing of the registers; every 4-bit value names a register,
and the top bit is the width class. -/
def Obligations.RegisterIdentifiersFollowTheListing : Prop :=
  [Register.AL, .CL, .DL, .BL, .AH, .CH, .DH, .BH, .AX, .CX, .DX, .BX, .SP, .BP, .SI, .DI].map
      Register.regId =
    [0x0#4, 0x1#4, 0x2#4, 0x3#4, 0x4#4, 0x5#4, 0x6#4, 0x7#4,
     0x8#4, 0x9#4, 0xA#4, 0xB#4, 0xC#4, 0xD#4, 0xE#4, 0xF#4] ∧
  (∀ (code : Code) (w : WidthFlag), (rrt rrtContents code w).regId = w ++ code) ∧
  (∀ id : RegId, ∃ r : Register, r.regId = id) ∧
  (∀ r : Register, r.width = .word ↔ r.regId.extractLsb' 3 1 = 1)

/-! ## The encoding -/

/-- Pairs written out from the spec's encodings decode to the moves they stand for: canonical ones of
both widths, ones with other unread bits, and the all-zero and all-one pairs. -/
def Obligations.SpecPairsDecodeAsWritten : Prop :=
  decode { b0 := 0b10001001, b1 := 0b11011001 } = .mov .CX .BX ∧
  decode { b0 := 0b10001001, b1 := 0b11011110 } = .mov .SI .BX ∧
  decode { b0 := 0b10001000, b1 := 0b11100101 } = .mov .CH .AH ∧
  decode { b0 := 0b10001011, b1 := 0b11011001 } = .mov .CX .BX ∧
  decode { b0 := 0b00000001, b1 := 0b00011001 } = .mov .CX .BX ∧
  decode { b0 := 0b00000000, b1 := 0b00000000 } = .mov .AL .AL ∧
  decode { b0 := 0b11111111, b1 := 0b11111111 } = .mov .DI .DI

/-- R39, R40, R41, R56: the extractor's fields are bit 0 of byte 0 and bits 2:0 and 5:3 of byte 1, each
in its range, and the width flag selects the width class of every register read. -/
def Obligations.ExtractCutsTheThreeFields : Prop :=
  (∀ p : Pair, extract p =
    { w := p.b0.extractLsb' 0 1, dstCode := p.b1.extractLsb' 0 3, srcCode := p.b1.extractLsb' 3 3 }) ∧
  (∀ p : Pair,
    (extract p).w.toNat = (p.b0 &&& 0b00000001#8).toNat ∧
    (extract p).dstCode.toNat = (p.b1 &&& 0b00000111#8).toNat ∧
    (extract p).srcCode.toNat = ((p.b1 &&& 0b00111000#8) >>> 3).toNat) ∧
  (∀ p : Pair, (extract p).w.toNat ≤ 1 ∧ (extract p).dstCode.toNat ≤ 7 ∧
    (extract p).srcCode.toNat ≤ 7) ∧
  (∀ (p : Pair) (code : Code),
    (rrt rrtContents code (extract p).w).width = if (extract p).w = 0 then .byte else .word) ∧
  extract { b0 := 0b10001001, b1 := 0b11011110 } = { w := 1, dstCode := 0b110, srcCode := 0b011 }

/-- The fields as arithmetic on unsigned numbers (R58): remainders and a quotient, with no wrap. -/
def Obligations.ExtractedFieldsAsArithmetic : Prop :=
  ∀ p : Pair,
    (extract p).w.toNat = p.b0.toNat % 2 ∧
    (extract p).dstCode.toNat = p.b1.toNat % 8 ∧
    (extract p).srcCode.toNat = p.b1.toNat / 8 % 8

/-- R62: one decode names two registers of one width class, the word class exactly when byte 0 bit 0
is 1. -/
def Obligations.DecodedRegistersShareAWidth : Prop :=
  ∀ (p : Pair) (destination source : Register), decode p = .mov destination source →
    destination.width = source.width ∧
    (destination.width = .word ↔ p.b0.extractLsb' 0 1 = 1)

/-- R66: with the two code fields swapped the two registers are swapped, and the result differs
whenever the codes differ; with the rule's own example. -/
def Obligations.SwappedCodesSwapTheRegisters : Prop :=
  (∀ (p q : Pair) (destination source : Register),
    q.b0.extractLsb' 0 1 = p.b0.extractLsb' 0 1 →
    q.b1.extractLsb' 0 3 = p.b1.extractLsb' 3 3 →
    q.b1.extractLsb' 3 3 = p.b1.extractLsb' 0 3 →
    decode p = .mov destination source →
    decode q = .mov source destination ∧
    (p.b1.extractLsb' 0 3 ≠ p.b1.extractLsb' 3 3 → decode q ≠ decode p)) ∧
  decode { b0 := 0x89, b1 := 0xD9 } = .mov .CX .BX ∧
  decode { b0 := 0x89, b1 := 0xCB } = .mov .BX .CX

/-- R43: exactly the bits 0 of byte 0 and 5:0 of byte 1 decide the instruction. -/
def Obligations.UnreadBitsDoNotMatter : Prop :=
  ∀ p q : Pair, decode p = decode q ↔
    p.b0.extractLsb' 0 1 = q.b0.extractLsb' 0 1 ∧ p.b1.extractLsb' 0 6 = q.b1.extractLsb' 0 6

/-- R44: every pair decodes to the Move of its own width flag and codes, different classes give different
moves, and each of the 128 classes has 512 pairs: the pattern `xxxxxxxw xxsssddd` with the seven and the
two unread bits at each of their 2^9 values, each value giving another pair. -/
def Obligations.EveryClassHas512Pairs : Prop :=
  (∀ p : Pair, decode p =
    .mov (rrt rrtContents (p.b1.extractLsb' 0 3) (p.b0.extractLsb' 0 1))
      (rrt rrtContents (p.b1.extractLsb' 3 3) (p.b0.extractLsb' 0 1))) ∧
  (∀ (w w' : WidthFlag) (src src' dst dst' : Code),
    Instr.mov (rrt rrtContents dst w) (rrt rrtContents src w) =
      Instr.mov (rrt rrtContents dst' w') (rrt rrtContents src' w') →
    w = w' ∧ src = src' ∧ dst = dst') ∧
  (∀ (w : WidthFlag) (src dst : Code) (p : Pair),
    decode p = .mov (rrt rrtContents dst w) (rrt rrtContents src w) ↔
      p = { b0 := p.b0.extractLsb' 1 7 ++ w, b1 := p.b1.extractLsb' 6 2 ++ src ++ dst }) ∧
  (∀ (w : WidthFlag) (src dst : Code) (u0 : BitVec 7) (u1 : BitVec 2),
    decode (Pair.ofFields w src dst u0 u1) = .mov (rrt rrtContents dst w) (rrt rrtContents src w) ∧
    (Pair.ofFields w src dst u0 u1).b0 = u0 ++ w ∧
    (Pair.ofFields w src dst u0 u1).b1 = u1 ++ src ++ dst ∧
    (Pair.ofFields w src dst u0 u1).b0.extractLsb' 1 7 = u0 ∧
    (Pair.ofFields w src dst u0 u1).b1.extractLsb' 6 2 = u1)

/-- The 16-bit view (R7, R28): the opcode table's word `b0 * 256 + b1` is read as the pair `(b0, b1)`,
byte 0 first. -/
def Obligations.TableWordIsByteZeroFirst : Prop :=
  ∀ p : Pair, decodeTableWord 16 (p.b0.toNat * 256 + p.b1.toNat) = some (decode p)

/-- A table word placed for the next step is the instruction that step runs, also where the word has
fewer than 16 bits, its high bits being zero. That placing a word presents a pair, and how a word's bits
are numbered, is the model's choice (log entry 6). -/
def Obligations.PlacedWordRunsNext : Prop :=
  ∀ (s : State) (nbits w : Nat) (i : Instr), s.TableOk → decodeTableWord nbits w = some i →
    step (s.withFetchWord nbits w) = exec i (s.withFetchWord nbits w)

/-- R49: the reference encoder refuses mixed widths, and otherwise answers the two bytes with the
width flag and the rows of the two registers in their places. -/
def Obligations.EncoderWritesTheCanonicalBytes : Prop :=
  (∀ d s : Register, d.width ≠ s.width → encode (.mov d s) = .error (.mixedWidth d s)) ∧
  (∀ (w : WidthFlag) (dc sc : Code),
    encode (.mov (rrt rrtContents dc w) (rrt rrtContents sc w)) =
      .ok { b0 := 0b1000100#7 ++ w, b1 := 0b11#2 ++ sc ++ dc }) ∧
  (∀ d s : Register, d.width = s.width → ∃ (w : WidthFlag) (dc sc : Code),
    d = rrt rrtContents dc w ∧ s = rrt rrtContents sc w ∧ (d.width = .word ↔ w = 1))

/-- R50, the headline: encoding then decoding gives back every same-width Move; encoding a decoded pair
and decoding again changes nothing; and it gives back the pair exactly when the pair is canonical. -/
def Obligations.EncodeDecodeRoundTrip : Prop :=
  (∀ i : Instr, i.WellFormed → ∃ p, encode i = .ok p ∧ decode p = i) ∧
  (∀ p : Pair, ∃ q, encode (decode p) = .ok q ∧ decode q = decode p) ∧
  (∀ p : Pair, encode (decode p) = .ok p ↔ p.Canonical)

/-! ## The reference stream adapter -/

/-- R35: an odd stream is rejected with its length; an even one, the empty one included, gives one
value per pair, in the order of the pairs, the earlier byte being byte 0. -/
def Obligations.StreamDecodesItsPairsInOrder : Prop :=
  (∀ S : List Byte, S.length % 2 = 1 → decodeStream S = .error (.trailingByte S.length)) ∧
  (∀ S : List Byte, S.length % 2 = 0 → ∃ out, decodeStream S = .ok out ∧
    out.length = S.length / 2 ∧
    ∀ (k : Nat) (b0 b1 : Byte), S[2 * k]? = some b0 → S[2 * k + 1]? = some b1 →
      out[k]? = some (decode { b0 := b0, b1 := b1 }))

/-- The adapter's offset starts at 0, and each pair taken adds 2 to it (R36) and one value to the output
(R35). That a step past the end of the stream changes nothing is the model's choice (log entry 9). -/
def Obligations.AdapterOffsetAdvancesByTwo : Prop :=
  (∀ (S : List Byte) (s : State) (a : Adapter), Adapter.start S s = .ok a → a.offset = 0) ∧
  (∀ a b : Adapter, a.step = .ok b →
    (a.stream.length ≤ a.offset ∧ b = a) ∨
    (a.offset + 1 < a.stream.length ∧ b.offset = a.offset + 2 ∧ b.stream = a.stream ∧
      ∃ i, b.out = a.out ++ [i]))

/-- The block, driven a pair a step by the adapter, computes `DecodeStream`: from any state with the
table intact, on every even stream, the run over all pairs collects exactly the stream's decodes,
ends at the stream's length and leaves the table as it was. The adapter's wiring to the block is the
model's choice (log entry 9). -/
def Obligations.AdapterDrivingTheBlockComputesTheStream : Prop :=
  ∀ (S : List Byte) (s : State) (out : List Instr), s.TableOk → decodeStream S = .ok out →
    ∃ a b, Adapter.start S s = .ok a ∧ Adapter.run (S.length / 2) a = .ok b ∧
      b.out = out ∧ b.offset = S.length ∧ b.driven.block = s.block

/-! ## The invariant -/

/-- The invariant holds after reset, and no result stands: the table has its contents and nothing has
been evaluated. That a result is a field, none at reset, is the model's choice (log entry 1). -/
def Obligations.ResetMeetsTheInvariant : Prop :=
  State.reset.Inv ∧ State.reset.result = none

/-- Every step, and every presenting of a pair, keeps the invariant: the ROM stays as R19 has it and no
result stands but that of the present inputs. That a result stands in the state is the model's choice
(log entry 1). -/
def Obligations.StepKeepsTheInvariant : Prop :=
  (∀ s t : State, s.Inv → step s = .next t → t.Inv) ∧
  (∀ (s : State) (p : Pair), s.Inv → (s.present p).Inv)

/-- From any state with the table intact, whatever result stood, one step is safe and its result is the
value of the present inputs. -/
def Obligations.OneStepAnswersThePresentInputs : Prop :=
  ∀ s : State, s.TableOk → SafeStep s ∧
    ∀ t, step s = .next t → t.TableOk ∧ t.result = some s.moveOfInputs

/-! ## DECODE -/

/-- R60: the decode reads the two cells that the destination and source codes select with one width flag,
destination first; on the wires they are `{b0[0], b1[2:0]}` and `{b0[0], b1[5:3]}`; no exception reaches
the caller; and the rule's corner cases and worked example hold. -/
def Obligations.DecodeReadsTwoCellsWithOneWidthFlag : Prop :=
  (∀ p : Pair, ∃ destination source : Register,
    decode p = .mov destination source ∧
    destination = rrt rrtContents (p.b1.extractLsb' 0 3) (p.b0.extractLsb' 0 1) ∧
    source = rrt rrtContents (p.b1.extractLsb' 3 3) (p.b0.extractLsb' 0 1) ∧
    destination.regId = p.b0.extractLsb' 0 1 ++ p.b1.extractLsb' 0 3 ∧
    source.regId = p.b0.extractLsb' 0 1 ++ p.b1.extractLsb' 3 3 ∧
    (p.b1.extractLsb' 3 3 = p.b1.extractLsb' 0 3 → destination = source)) ∧
  (∀ code : Code, 4 ≤ code.toNat →
    rrt rrtContents code 0 ∈ [Register.AH, .CH, .DH, .BH] ∧
    rrt rrtContents code 1 ∈ [Register.SP, .BP, .SI, .DI]) ∧
  (∀ p : Pair, decodeChecked rrtContents p = .ok (decode p)) ∧
  decode { b0 := 0x88, b1 := 0xED } = .mov .CH .CH ∧
  decode { b0 := 0xFF, b1 := 0x3F } = .mov .DI .DI ∧
  decode { b0 := 0x89, b1 := 0xFF } = .mov .DI .DI ∧
  decode { b0 := 0x00, b1 := 0x00 } = .mov .AL .AL ∧
  decode { b0 := 0xFF, b1 := 0xFF } = .mov .DI .DI ∧
  decode { b0 := 0x89, b1 := 0xD9 } = .mov .CX .BX
end

