-- ==== Sys2Proof/Laws/Decode.lean ====
section
/-! SUPPORT. What the table read and the extractor can do, once each. -/

namespace Sys2Proof

/-- In range the checked read is the hardware port's read, over any table contents. -/
theorem rrtChecked_port (table : Table) (code : Code) (w : WidthFlag) :
    rrtChecked table code.toNat w.toNat = .ok (rrt table code w) := by
  have hc : code.toNat < 8 := code.isLt
  have hw : w.toNat < 2 := w.isLt
  simp [rrtChecked, rrt, hc, hw]

/-- The checked read is inverted: an answer means that both operands were in range. -/
theorem rrtChecked_ok_range {table : Table} {code w : Nat} {r : Register}
    (h : rrtChecked table code w = .ok r) : code < 8 ∧ w < 2 := by
  unfold rrtChecked at h
  split at h
  · assumption
  · cases h

/-- A rejection records the operands as given. -/
theorem rrtChecked_error_eq {table : Table} {code w : Nat} {v : InvariantViolation}
    (h : rrtChecked table code w = .error v) : v = { code := code, w := w } := by
  unfold rrtChecked at h
  split at h
  · cases h
  · cases h; rfl

/-- The masks and the shift cut fields of the byte. -/
theorem mask_w (b : Byte) : (b &&& 0b00000001#8).setWidth 1 = b.extractLsb' 0 1 := by
  ext i hi
  obtain rfl : i = 0 := by omega
  simp

theorem mask_dst (b : Byte) : (b &&& 0b00000111#8).setWidth 3 = b.extractLsb' 0 3 := by
  ext i hi
  have : i = 0 ∨ i = 1 ∨ i = 2 := by omega
  rcases this with rfl | rfl | rfl <;> simp

theorem mask_src (b : Byte) : ((b &&& 0b00111000#8) >>> 3).setWidth 3 = b.extractLsb' 3 3 := by
  ext i hi
  have : i = 0 ∨ i = 1 ∨ i = 2 := by omega
  rcases this with rfl | rfl | rfl <;> simp

/-- A register is the one its position holds in the table's contents. -/
@[simp] theorem rrt_position (r : Register) : rrt rrtContents r.position.1 r.position.2 = r := by
  cases r <;> rfl

@[simp] theorem position_rrt (code : Code) (w : WidthFlag) :
    (rrt rrtContents code w).position = (code, w) := by
  revert code w; decide

@[simp] theorem ofRegId_regId (r : Register) : Register.ofRegId r.regId = r := by
  cases r <;> rfl

end Sys2Proof
end

