-- ==== Sys2Proof/Laws/State.lean ====
section
/-! SUPPORT. One lemma per field per update of the state, so that no proof unfolds a record update. -/

namespace Sys2Proof.Machine

variable (s : State) (p q : Pair) (i j : Instr)

@[simp] theorem State.present_block : (s.present p).block = s.block := rfl
@[simp] theorem State.present_inB0 : (s.present p).inB0 = p.b0 := rfl
@[simp] theorem State.present_inB1 : (s.present p).inB1 = p.b1 := rfl
@[simp] theorem State.present_result : (s.present p).result = none := rfl
@[simp] theorem State.present_pair : (s.present p).pair = p := rfl

@[simp] theorem State.emit_block : (s.emit i).block = s.block := rfl
@[simp] theorem State.emit_inB0 : (s.emit i).inB0 = s.inB0 := rfl
@[simp] theorem State.emit_inB1 : (s.emit i).inB1 = s.inB1 := rfl
@[simp] theorem State.emit_result : (s.emit i).result = some i := rfl
@[simp] theorem State.emit_pair : (s.emit i).pair = s.pair := rfl

/-- Emitting leaves the output ports alone: they follow the inputs and the table only (R25). -/
@[simp] theorem State.emit_outDst : (s.emit i).outDst = s.outDst := rfl
@[simp] theorem State.emit_outSrc : (s.emit i).outSrc = s.outSrc := rfl
@[simp] theorem State.emit_output : (s.emit i).output = s.output := rfl

@[simp] theorem State.emit_emit : (s.emit i).emit j = s.emit j := rfl
@[simp] theorem State.present_present : (s.present p).present q = s.present q := rfl
@[simp] theorem State.emit_present : (s.emit i).present p = s.present p := rfl

end Sys2Proof.Machine
end

