-- ==== Sys2Proof/Laws/Step.lean ====
section
/-! SUPPORT. What `exec` and the raising of the fault can do, and how a step splits. -/

namespace Sys2Proof.Machine

/-- The one arm of `exec`: the value emitted, nothing else written. -/
@[simp] theorem exec_mov (d r : Register) (s : State) : exec (.mov d r) s = .next (s.emit (.mov d r)) := rfl

/-- Every next state of `exec` is the state with the instruction emitted. -/
theorem exec_cases {i : Instr} {s t : State} (h : exec i s = .next t) : t = s.emit i := by
  cases i with
  | mov d r =>
    rw [exec_mov] at h
    cases h
    rfl

/-- The fault carries no next state (R70). -/
theorem raiseViolation_ne_next (v : InvariantViolation) (t : State) : raiseViolation v ≠ .next t := by
  simp [raiseViolation]

/-- A next state of a step comes from `exec` of what the block's table made of the pair. -/
theorem step_cases {s t : State} (h : step s = .next t) :
    ∃ i, s.block.eval s.pair = .ok i ∧ exec i s = .next t := by
  unfold step at h
  split at h
  · exact ⟨_, ‹_›, h⟩
  · exact absurd h (raiseViolation_ne_next _ _)

end Sys2Proof.Machine
end

