-- ==== Sys2Proof/Laws/Stream.lean ====
section
/-! SUPPORT. How the pairs of a stream fall, and what the adapter does where no pair is left. -/

namespace Sys2Proof.Machine

@[simp] theorem decodePairs_cons_cons (b0 b1 : Byte) (rest : List Byte) :
    decodePairs (b0 :: b1 :: rest) = decode { b0 := b0, b1 := b1 } :: decodePairs rest := rfl

/-- Past the end of its stream the adapter stays as it is. -/
theorem Adapter.step_past_end {a : Adapter} (h : a.stream.length ≤ a.offset) : a.step = .ok a := by
  simp [Adapter.step, List.getElem?_eq_none h]

end Sys2Proof.Machine
end

