-- ==== Sys2Proof/Machine/Flags.lean ====
section
/-! DEFINITION. Flag computations: none. The block has no status flags, condition codes, predicates,
control registers or status registers, and a decode records nothing of itself (10_state.md R23; the
rules R52, R56 and R60 each say "Flags written: none"). -/
end

