-- ==== Sys2Proof/Tests/Slice0.lean ====
section
/-! SUPPORT. Tests on fixed values; every expected value is one of spec/95_test_vectors.md or is written
out there from the spec's encoding. After them, the witnesses of the statements' hypotheses. -/

namespace Sys2Proof.Tests

open Sys2Proof Sys2Proof.Machine

/-! ## WellFormed smoke test -/

/-- V-EN-4 and V-EN-5: the check refuses a Move of two widths, even of one row of the table. -/
theorem test_wellFormed_refuses_mixed_widths :
    ¬ (Instr.mov .AX .BL).WellFormed ∧ ¬ (Instr.mov .SP .AH).WellFormed := by decide

theorem test_wellFormed_accepts_both_classes :
    (Instr.mov .CH .AH).WellFormed ∧ (Instr.mov .SI .BX).WellFormed := by decide

/-! ## The table (L2-1, L1-3) -/

/-- V-LK-01 to V-LK-08. -/
theorem test_lookup_byte_column :
    (List.range 8).map (fun c => rrt rrtContents (BitVec.ofNat 3 c) 0) =
      [.AL, .CL, .DL, .BL, .AH, .CH, .DH, .BH] := by decide

/-- V-LK-09 to V-LK-16. -/
theorem test_lookup_word_column :
    (List.range 8).map (fun c => rrt rrtContents (BitVec.ofNat 3 c) 1) =
      [.AX, .CX, .DX, .BX, .SP, .BP, .SI, .DI] := by decide

/-- V-BC-1 to V-BC-3: no index wraps, and no nonzero flag means word. -/
theorem test_checked_lookup_rejects :
    rrtChecked rrtContents 8 0 = .error { code := 8, w := 0 } ∧
    rrtChecked rrtContents 8 1 = .error { code := 8, w := 1 } ∧
    rrtChecked rrtContents 0 2 = .error { code := 0, w := 2 } := ⟨rfl, rfl, rfl⟩

/-- V-BC-4 to V-BC-6. -/
theorem test_checked_lookup_records_both :
    rrtChecked rrtContents 7 2 = .error { code := 7, w := 2 } ∧
    rrtChecked rrtContents 8 2 = .error { code := 8, w := 2 } ∧
    rrtChecked rrtContents 255 0 = .error { code := 255, w := 0 } := ⟨rfl, rfl, rfl⟩

/-- V-BC-7 and V-BC-8: the nearest accepted operands. -/
theorem test_checked_lookup_accepts :
    rrtChecked rrtContents 7 1 = .ok .DI ∧ rrtChecked rrtContents 0 1 = .ok .AX := ⟨rfl, rfl⟩

/-! ## The extractor (L2-2) -/

/-- V-EX-03 and V-EX-04: the unread bits reach no field. -/
theorem test_extract_ignores_unread_bits :
    extract { b0 := 0xFE, b1 := 0x3F } = { w := 0, dstCode := 7, srcCode := 7 } ∧
    extract { b0 := 0x01, b1 := 0xC0 } = { w := 1, dstCode := 0, srcCode := 0 } := by decide

/-- V-EX-05, V-EX-06 and V-EX-07: the source's own bytes, and no leak between the fields. -/
theorem test_extract_fields_do_not_leak :
    extract { b0 := 0x89, b1 := 0xDE } = { w := 1, dstCode := 6, srcCode := 3 } ∧
    extract { b0 := 0x89, b1 := 0x38 } = { w := 1, dstCode := 0, srcCode := 7 } ∧
    extract { b0 := 0x89, b1 := 0x07 } = { w := 1, dstCode := 7, srcCode := 0 } := by decide

/-! ## Decoding: words written out bit by bit from R38, `xxxxxxxw xxsssddd` -/

/-- L1-1 under C1: w = 1, sss = 011, ddd = 110. -/
theorem test_decode_source_example :
    decode { b0 := 0b10001001, b1 := 0b11011110 } = .mov .SI .BX := by decide

/-- V-DC-038: w = 0, sss = 100, ddd = 101. -/
theorem test_decode_byte_form :
    decode { b0 := 0b10001000, b1 := 0b11100101 } = .mov .CH .AH := by decide

/-- V-UB-1, V-UB-2, V-UB-5. -/
theorem test_decode_unread_bits :
    decode { b0 := 0x8B, b1 := 0xD9 } = .mov .CX .BX ∧
    decode { b0 := 0x01, b1 := 0x19 } = .mov .CX .BX ∧
    decode { b0 := 0xFF, b1 := 0x3F } = .mov .DI .DI := by decide

/-- V-UB-7: the swapped fields give another value. -/
theorem test_decode_swapped_fields : decode { b0 := 0x89, b1 := 0xCB } = .mov .BX .CX := by decide

/-- V-DC-117 as the table numbers its bits, `W = b0 * 256 + b1`. -/
theorem test_decodeTableWord : decodeTableWord 16 0x89F4 = some (.mov .SP .SI) := by decide

/-! ## The encoder (L2-5) -/

/-- V-EN-1, V-EN-3. -/
theorem test_encode_bytes :
    encode (.mov .SI .BX) = .ok { b0 := 0x89, b1 := 0xDE } ∧
    encode (.mov .CH .AH) = .ok { b0 := 0x88, b1 := 0xE5 } := ⟨rfl, rfl⟩

/-- V-EN-4. -/
theorem test_encode_refuses_mixed_widths :
    encode (.mov .AX .BL) = .error (.mixedWidth .AX .BL) := rfl

/-- V-EN-7: the unread bits of a pair that is not canonical are lost. -/
theorem test_encode_decode_canonicalises :
    encode (decode { b0 := 0x8B, b1 := 0xD9 }) = .ok { b0 := 0x89, b1 := 0xD9 } := rfl

theorem test_canonical :
    Pair.Canonical { b0 := 0x88, b1 := 0xC0 } ∧ Pair.Canonical { b0 := 0x89, b1 := 0xD9 } ∧
    ¬ Pair.Canonical { b0 := 0x8B, b1 := 0xD9 } ∧ ¬ Pair.Canonical { b0 := 0x89, b1 := 0x99 } := by decide

/-! ## One step -/

/-- The block with a pair presented after reset. -/
def presented (b0 b1 : Byte) : State := State.reset.present { b0 := b0, b1 := b1 }

/-- V-DC-117: `out_dst = 0xC`, `out_src = 0xE` as soon as the pair stands on the inputs, though another
was evaluated before. -/
theorem test_outputs_follow_the_inputs :
    let s := ({ presented 0x88 0xC0 with result := some (.mov .AL .AL) } : State)
    (s.present { b0 := 0x89, b1 := 0xF4 }).outDst = 0xC ∧
    (s.present { b0 := 0x89, b1 := 0xF4 }).outSrc = 0xE ∧
    (s.present { b0 := 0x89, b1 := 0xF4 }).result = none := by decide

/-- V-DC-117: the value that one step emits. -/
theorem test_step_emits_the_move :
    step (presented 0x89 0xF4) = .next { presented 0x89 0xF4 with result := some (.mov .SP .SI) } := rfl

/-- V-DC-008 read back from the ports, on a pair placed as a table word. -/
theorem test_step_placed_word :
    ∃ t, step (State.reset.withFetchWord 16 0x88C7) = .next t ∧ t.output = .mov .BH .AL :=
  ⟨_, rfl, rfl⟩

/-! ## Streams (L1-2, L2-6) -/

/-- L1-2: the eleven moves of the source's scenario 2. -/
theorem test_stream_scenario_two :
    decodeStream [0x89, 0xD9, 0x88, 0xE5, 0x89, 0xDA, 0x89, 0xDE, 0x89, 0xFB, 0x88, 0xC8,
                  0x88, 0xED, 0x89, 0xC3, 0x89, 0xF3, 0x89, 0xFC, 0x89, 0xC5] =
      .ok [.mov .CX .BX, .mov .CH .AH, .mov .DX .BX, .mov .SI .BX, .mov .BX .DI, .mov .AL .CL,
           .mov .CH .CH, .mov .BX .AX, .mov .BX .SI, .mov .SP .DI, .mov .BP .AX] := rfl

/-- V-ST-1, V-ST-3, V-ST-4. -/
theorem test_stream_edges :
    decodeStream [] = .ok [] ∧
    decodeStream [0x89, 0xD9, 0x88] = .error (.trailingByte 3) ∧
    decodeStream [0xD9, 0x89] = .ok [.mov .CX .CX] := ⟨rfl, rfl, rfl⟩

/-! ## Witnesses: each statement's hypotheses are met together -/

/-- StepRunsTheDecodedInstruction and PlacedWordRunsNext, at the largest table word, at a word whose nbits
stop short of a set bit (so `[0x00, 0xDE]`, w = 0) and at no bits at all. -/
theorem witness_decoded_instruction :
    (presented 0x89 0xDE).TableOk ∧ decode (presented 0x89 0xDE).pair = .mov .SI .BX ∧
    decodeTableWord 16 0xFFFF = some (.mov .DI .DI) ∧
    decodeTableWord 8 0x89DE = some (.mov .DH .BL) ∧
    decodeTableWord 0 0x89DE = some (.mov .AL .AL) := by decide

/-- TableAndInputsAreNeverWritten, EarlierPairLeavesNoTrace: `exec` and `step` answer next states. -/
theorem witness_next_states :
    (∃ t, exec (.mov .AX .BL) State.reset = .next t) ∧
    (∃ t, step (State.reset.present { b0 := 0xFF, b1 := 0x3F }) = .next t) := ⟨⟨_, rfl⟩, ⟨_, rfl⟩⟩

/-- OutputsAreTheWiresOfThePresentInputs and InstancesWithOnePairAgree: two states with one pair and
different results, both stepping. -/
theorem witness_two_instances :
    let s := presented 0x88 0xED
    let s' := { s with result := some (.mov .AX .BL) }
    s.TableOk ∧ s'.TableOk ∧ s.block = s'.block ∧ s.pair = s'.pair ∧ s ≠ s' ∧
      (∃ t, step s = .next t) ∧ (∃ t, step s' = .next t) :=
  ⟨rfl, rfl, rfl, rfl, by decide, ⟨_, rfl⟩, ⟨_, rfl⟩⟩

/-- CheckedReadRejectsOutOfRange, clause by clause at the boundaries: in range at 7 and 1; out of range
by the code alone and by the flag alone. -/
theorem witness_checked_read_ranges : (7 < 8 ∧ 1 < 2) ∧ (8 > 7 ∨ 0 > 1) ∧ (7 > 7 ∨ 2 > 1) := by decide

/-- DestinationReadFaultsFirst: both operands out of range, and both reads faulting. -/
theorem witness_both_reads_fault :
    (8 > 7 ∧ 2 > 1) ∧
    rrtChecked rrtContents 8 1 = .error { code := 8, w := 1 } ∧
    rrtChecked rrtContents 9 1 = .error { code := 9, w := 1 } := ⟨by decide, rfl, rfl⟩

/-- SourceReadFaultIsReported at the boundary values. -/
theorem witness_source_read_faults : 7 ≤ 7 ∧ 1 ≤ 1 ∧ 8 > 7 := by decide

/-- TableIsCompleteAndInjective at the last cell. -/
theorem witness_last_cell : 7 ≤ 7 ∧ 1 ≤ 1 := by decide

/-- DecodedRegistersShareAWidth and DecodeReadsTwoCellsWithOneWidthFlag (equal codes, a code of 4 or
more), in both classes. -/
theorem witness_decoded_pairs :
    decode { b0 := 0x00, b1 := 0x00 } = .mov .AL .AL ∧
    decode { b0 := 0xFF, b1 := 0xFF } = .mov .DI .DI ∧
    BitVec.extractLsb' 3 3 0xFF#8 = BitVec.extractLsb' 0 3 0xFF#8 ∧
    4 ≤ (4#3).toNat := by decide

/-- SwappedCodesSwapTheRegisters on the rule's own pairs, with codes that differ. -/
theorem witness_swapped_codes :
    let p : Pair := { b0 := 0x89, b1 := 0xD9 }
    let q : Pair := { b0 := 0x89, b1 := 0xCB }
    q.b0.extractLsb' 0 1 = p.b0.extractLsb' 0 1 ∧ q.b1.extractLsb' 0 3 = p.b1.extractLsb' 3 3 ∧
    q.b1.extractLsb' 3 3 = p.b1.extractLsb' 0 3 ∧ decode p = .mov .CX .BX ∧
    p.b1.extractLsb' 0 3 ≠ p.b1.extractLsb' 3 3 := by decide

/-- EveryClassHas512Pairs (its second clause): equal moves from equal classes. -/
theorem witness_equal_moves :
    Instr.mov (rrt rrtContents 7 1) (rrt rrtContents 0 1) = .mov .DI .AX := rfl

/-- EncoderWritesTheCanonicalBytes: registers of one width, and of two. -/
theorem witness_encoder_widths :
    Register.AX.width ≠ Register.BL.width ∧ Register.SP.width = Register.DI.width := by decide

/-- EncodeDecodeRoundTrip: a well-formed Move. -/
theorem witness_round_trip : (Instr.mov .BP .AX).WellFormed := by decide

/-- StreamDecodesItsPairsInOrder: an odd stream, an even one, and its pair number 0. -/
theorem witness_streams :
    [0x89#8].length % 2 = 1 ∧ [0x89#8, 0xD9#8].length % 2 = 0 ∧
    [0x89#8, 0xD9#8][2 * 0]? = some 0x89#8 ∧ [0x89#8, 0xD9#8][2 * 0 + 1]? = some 0xD9#8 := by decide

/-- AdapterOffsetAdvancesByTwo: a start, a step that takes the only pair, and one past the end. -/
theorem witness_adapter_steps :
    ∃ a b, Adapter.start [0x89, 0xD9] State.reset = .ok a ∧ a.step = .ok b ∧ b.step = .ok b :=
  ⟨_, _, rfl, rfl, rfl⟩

/-- AdapterDrivingTheBlockComputesTheStream: an intact table and a stream that decodes. -/
theorem witness_adapter_stream :
    State.reset.TableOk ∧ decodeStream [0x89, 0xD9] = .ok [.mov .CX .BX] := ⟨rfl, rfl⟩

/-- StepKeepsTheInvariant, EmittedMoveReadsBackFromThePorts and OneStepAnswersThePresentInputs: an
evaluated state, not the one after reset, that steps; and one with its table intact whose result is not
that of its inputs. -/
theorem witness_invariant :
    let s : State := { presented 0x89 0xF4 with result := some (.mov .SP .SI) }
    let s' : State := { presented 0x89 0xF4 with result := some (.mov .AL .AL) }
    s.Inv ∧ step s = .next s ∧ s'.TableOk ∧ ¬ s'.ResultOk :=
  ⟨by decide, rfl, rfl, by decide⟩

end Sys2Proof.Tests
end

/-! ## The decoder and the ports, by the wires of the present inputs -/

namespace Sys2Proof

/-- R56: the three fields, by bit position. -/
theorem extract_eq_wires (p : Pair) : extract p =
    { w := p.b0.extractLsb' 0 1
      dstCode := p.b1.extractLsb' 0 3
      srcCode := p.b1.extractLsb' 3 3 } := by
  simp only [extract, mask_w, mask_dst, mask_src]

/-- R57: the checked decode answers the hardware's decode, since the extracted fields are in range. -/
theorem decodeChecked_eq_ok_decodeWith (table : Table) (p : Pair) :
    decodeChecked table p = .ok (decodeWith table p) := by
  simp only [decodeChecked, moveOfCodes, rrtChecked_port, decodeWith]

/-- The identifier of a cell is `{w, code}` (R16). -/
@[simp] theorem regId_rrt (code : Code) (w : WidthFlag) :
    (rrt rrtContents code w).regId = w ++ code := by
  rw [Register.regId, position_rrt, rrtId]

/-- Every 4-bit value is the identifier of the register that it names (R16). -/
@[simp] theorem regId_ofRegId (id : RegId) : (Register.ofRegId id).regId = id := by
  rw [Register.ofRegId, regId_rrt]
  revert id
  decide

/-- The top bit of an identifier is the width flag of its class (R16, R39). -/
theorem width_eq_word_iff_regId_top (r : Register) :
    r.width = .word ↔ r.regId.extractLsb' 3 1 = 1 := by
  cases r <;> decide

namespace Machine

/-! ### The step -/

/-- Every step emits what the block's table decodes the present pair to; no state faults (R69). -/
theorem step_eq_next_emit (s : State) :
    step s = .next (s.emit (decodeWith s.block.rrt s.pair)) := by
  simp only [step, Block.eval, decodeChecked_eq_ok_decodeWith]
  rw [decodeWith, exec_mov]

/-- The decode of the present inputs, by the bits that R25 names. -/
theorem State.moveOfInputs_eq_decode (s : State) : s.moveOfInputs = decode s.pair := by
  rw [decode, decodeWith, extract_eq_wires]
  rfl

@[simp] theorem State.emit_moveOfInputs (s : State) (i : Instr) :
    (s.emit i).moveOfInputs = s.moveOfInputs := rfl

/-- With the table intact the step emits the decode of the present pair. -/
theorem step_of_tableOk {s : State} (hs : s.TableOk) : step s = .next (s.emit (decode s.pair)) := by
  rw [step_eq_next_emit, hs, decode]

/-- A next state is known in full: the state with its own pair's decode emitted. -/
theorem eq_emit_of_step {s t : State} (hs : s.TableOk) (h : step s = .next t) :
    t = s.emit (decode s.pair) := by
  rw [step_of_tableOk hs] at h
  cases h
  rfl

/-- A step answers a state that steps to itself: its pair and its table are those already evaluated. -/
theorem step_fixed_of_step {s t : State} (h : step s = .next t) : step t = .next t := by
  rw [step_eq_next_emit] at h
  cases h
  rw [step_eq_next_emit, State.emit_block, State.emit_pair, State.emit_emit]

/-! ### Runs of a machine -/

theorem run_succ_of_step {M : Host.Core} {s t : M.State} (k : Nat) (h : M.step s = .next t) :
    M.run (k + 1) s = M.run k t := by
  rw [Host.Core.run, h]

/-- A state that steps to itself is where every run from it ends. -/
theorem run_of_step_fixed {M : Host.Core} {s : M.State} (h : M.step s = .next s) (k : Nat) :
    M.run k s = .next s := by
  induction k with
  | zero => rfl
  | succ k ih => rw [run_succ_of_step k h, ih]

/-- Where the first step ends in a state that steps to itself, a longer run answers what it answered. -/
theorem run_succ_eq_step {M : Host.Core} {s t : M.State} (k : Nat) (h : M.step s = .next t)
    (ht : M.step t = .next t) : M.run (k + 1) s = M.step s := by
  rw [run_succ_of_step k h, run_of_step_fixed ht, h]

/-! ### The output ports -/

/-- R25: `out_dst = {in_b0[0], in_b1[2:0]}`. -/
theorem State.outDst_eq_wires {s : State} (hs : s.TableOk) :
    s.outDst = s.inB0.extractLsb' 0 1 ++ s.inB1.extractLsb' 0 3 := by
  rw [State.outDst, hs, regId_rrt, extract_eq_wires]
  rfl

/-- R25: `out_src = {in_b0[0], in_b1[5:3]}`. -/
theorem State.outSrc_eq_wires {s : State} (hs : s.TableOk) :
    s.outSrc = s.inB0.extractLsb' 0 1 ++ s.inB1.extractLsb' 3 3 := by
  rw [State.outSrc, hs, regId_rrt, extract_eq_wires]
  rfl

/-- What a consumer reads from the two ports is what the table's cells hold, destination first. -/
theorem State.output_eq_decodeWith (s : State) : s.output = decodeWith s.block.rrt s.pair := by
  rw [State.output, State.outDst, State.outSrc, ofRegId_regId, ofRegId_regId, decodeWith]

theorem State.output_of_tableOk {s : State} (hs : s.TableOk) : s.output = decode s.pair := by
  rw [State.output_eq_decodeWith, hs, decode]

/-! ### What an instruction and a step leave unchanged -/

/-- Every next state of `exec` has the table, the inputs and the output ports of the state before. -/
theorem exec_frame {i : Instr} {s t : State} (h : exec i s = .next t) :
    t.block = s.block ∧ t.inB0 = s.inB0 ∧ t.inB1 = s.inB1 ∧ t.outDst = s.outDst ∧
      t.outSrc = s.outSrc := by
  obtain rfl := exec_cases h
  simp only [State.emit_block, State.emit_inB0, State.emit_inB1, State.emit_outDst,
    State.emit_outSrc, and_self]

/-! ### The invariant -/

theorem reset_tableOk : State.reset.TableOk := rfl

/-- With the table intact a step establishes the invariant, whatever result stood before. -/
theorem inv_of_step {s t : State} (hs : s.TableOk) (h : step s = .next t) : t.Inv := by
  obtain rfl := eq_emit_of_step hs h
  refine ⟨hs, Or.inr ?_⟩
  rw [State.emit_result, State.emit_moveOfInputs, State.moveOfInputs_eq_decode]

/-- A presented pair has no result yet. -/
theorem inv_present {s : State} (hs : s.TableOk) (p : Pair) : (s.present p).Inv :=
  ⟨hs, Or.inl (State.present_result s p)⟩

/-! ## The obligations on the state -/

/-- Settles O32: the step establishes the invariant from the table alone, and presenting clears the
result. -/
theorem stepKeepsTheInvariant : Obligations.StepKeepsTheInvariant := by
  unfold Obligations.StepKeepsTheInvariant
  constructor
  · rintro s t ⟨hs, -⟩ h
    exact inv_of_step hs h
  · rintro s p ⟨hs, -⟩
    exact inv_present hs p

/-- Settles O4: a step is `exec` of what its table decodes, so it has `exec`'s frame. -/
theorem tableAndInputsAreNeverWritten : Obligations.TableAndInputsAreNeverWritten := by
  unfold Obligations.TableAndInputsAreNeverWritten
  refine ⟨fun _ _ _ h => exec_frame h, fun s t h => ?_, State.present_block⟩
  obtain ⟨_, -, hexec⟩ := step_cases h
  exact exec_frame hexec

/-- Settles O5: both ports are wires of the present inputs, and both the result and the ports' reading
after a step are the decode of the pair. -/
theorem outputsAreTheWiresOfThePresentInputs :
    Obligations.OutputsAreTheWiresOfThePresentInputs := by
  unfold Obligations.OutputsAreTheWiresOfThePresentInputs
  refine ⟨fun s hs => ⟨State.outDst_eq_wires hs, State.outSrc_eq_wires hs⟩, regId_rrt,
    fun s p hs => ?_, fun s s' t t' hs hs' hpair h h' => ?_⟩
  · have hp : (s.present p).TableOk := hs
    exact ⟨State.outDst_eq_wires hp, State.outSrc_eq_wires hp⟩
  · obtain rfl := eq_emit_of_step hs h
    obtain rfl := eq_emit_of_step hs' h'
    simp only [State.emit_result, State.emit_output, State.output_of_tableOk hs,
      State.output_of_tableOk hs', hpair, and_self]

/-- Settles O8: the first step ends in a state that steps to itself. -/
theorem heldPairHoldsTheOutputs : Obligations.HeldPairHoldsTheOutputs := by
  unfold Obligations.HeldPairHoldsTheOutputs
  intro k s
  have h := step_eq_next_emit s
  exact run_succ_eq_step (M := Sys2Proof.core) k h (step_fixed_of_step h)

/-- Settles O33: the step is safe in every state, and its result is the present pair's decode. -/
theorem oneStepAnswersThePresentInputs : Obligations.OneStepAnswersThePresentInputs := by
  unfold Obligations.OneStepAnswersThePresentInputs
  refine fun s hs => ⟨⟨_, step_of_tableOk hs⟩, fun t h => ?_⟩
  obtain rfl := eq_emit_of_step hs h
  exact ⟨hs, by rw [State.emit_result, State.moveOfInputs_eq_decode]⟩

/-- Settles O2, by the one arm of `exec`. -/
theorem execMovEmitsTheMove : Obligations.ExecMovEmitsTheMove := by
  unfold Obligations.ExecMovEmitsTheMove
  exact exec_mov

/-- Settles O3: an identifier reads back as its register, so the ports read back as the decode. -/
theorem emittedMoveReadsBackFromThePorts : Obligations.EmittedMoveReadsBackFromThePorts := by
  unfold Obligations.EmittedMoveReadsBackFromThePorts
  refine ⟨fun d r => by rw [ofRegId_regId, ofRegId_regId], fun s hs => ?_⟩
  refine ⟨_, step_of_tableOk hs, ?_, rfl⟩
  rw [State.emit_result, State.emit_output, State.output_of_tableOk hs]

/-- Settles O14: the reset table is the contents of R19, read cell by cell. -/
theorem resetTableHoldsTheSixteenRegisters : Obligations.ResetTableHoldsTheSixteenRegisters := by
  unfold Obligations.ResetTableHoldsTheSixteenRegisters
  rw [reset_tableOk]
  exact ⟨rfl, rfl⟩

/-- Settles O16: the identifier of a cell is `{w, code}`, and each value is that of the register it
names. -/
theorem registerIdentifiersFollowTheListing :
    Obligations.RegisterIdentifiersFollowTheListing := by
  unfold Obligations.RegisterIdentifiersFollowTheListing
  exact ⟨by decide, regId_rrt, fun id => ⟨_, regId_ofRegId id⟩, width_eq_word_iff_regId_top⟩

/-- Settles O31: at reset the table has its contents and nothing has been evaluated. -/
theorem resetMeetsTheInvariant : Obligations.ResetMeetsTheInvariant := by
  unfold Obligations.ResetMeetsTheInvariant
  have hresult : State.reset.result = none := rfl
  exact ⟨⟨reset_tableOk, Or.inl hresult⟩, hresult⟩

end Machine
end Sys2Proof

/-! ## The 16-bit view of a pair, streams and the reference adapter (20_memory.md) -/

namespace Sys2Proof

/-! ### The 16-bit view -/

theorem Pair.toWord_lt (p : Pair) : p.toWord < 2 ^ 16 := by
  have h0 := p.b0.isLt
  have h1 := p.b1.isLt
  rw [Pair.toWord]
  omega

/-- R28: byte 0 is the quotient of the word by 256 and byte 1 its remainder. -/
@[simp] theorem Pair.ofWord_toWord (p : Pair) : Pair.ofWord p.toWord = p := by
  obtain ⟨b0, b1⟩ := p
  have h1 := b1.isLt
  have hb0 : BitVec.ofNat 8 ((b0.toNat * 256 + b1.toNat) / 256) = b0 := by
    rw [show (b0.toNat * 256 + b1.toNat) / 256 = b0.toNat by omega, BitVec.ofNat_toNat,
      BitVec.setWidth_eq]
  have hb1 : BitVec.ofNat 8 (b0.toNat * 256 + b1.toNat) = b1 := by
    apply BitVec.eq_of_toNat_eq
    rw [BitVec.toNat_ofNat]
    omega
  rw [Pair.ofWord, Pair.toWord, hb0, hb1]

theorem Pair.ofTableWord_of_lt {nbits w : Nat} (h : w < 2 ^ nbits) :
    Pair.ofTableWord nbits w = Pair.ofWord w := by
  rw [Pair.ofTableWord, Nat.mod_eq_of_lt h]

theorem decodeTableWord_of_le {nbits : Nat} (h : nbits ≤ 16) (w : Nat) :
    decodeTableWord nbits w = some (decode (Pair.ofTableWord nbits w)) := if_pos h

namespace Machine

/-! ### The stream -/

theorem decodeStream_of_odd {S : List Byte} (h : S.length % 2 = 1) :
    decodeStream S = .error (.trailingByte S.length) := if_pos h

theorem decodeStream_of_even {S : List Byte} (h : S.length % 2 = 0) :
    decodeStream S = .ok (decodePairs S) := if_neg (by omega)

/-- A stream that decodes is even, and the answer is its pairs' decodes. -/
theorem decodeStream_ok {S : List Byte} {out : List Instr} (h : decodeStream S = .ok out) :
    S.length % 2 = 0 ∧ out = decodePairs S := by
  obtain heven | hodd := Nat.mod_two_eq_zero_or_one S.length
  · rw [decodeStream_of_even heven] at h
    cases h
    exact ⟨heven, rfl⟩
  · rw [decodeStream_of_odd hodd] at h
    cases h

/-- Two bytes make one value; a last single byte makes none. -/
@[simp] theorem length_decodePairs (S : List Byte) : (decodePairs S).length = S.length / 2 := by
  induction S using decodePairs.induct with
  | case1 => rfl
  | case2 => simp [decodePairs]
  | case3 b0 b1 rest ih =>
    simp only [decodePairs_cons_cons, List.length_cons, ih]
    omega

/-- R35: the `k`-th value is the decode of the bytes at `2 * k` and `2 * k + 1`. -/
theorem getElem?_decodePairs {S : List Byte} {k : Nat} {b0 b1 : Byte}
    (h0 : S[2 * k]? = some b0) (h1 : S[2 * k + 1]? = some b1) :
    (decodePairs S)[k]? = some (decode { b0 := b0, b1 := b1 }) := by
  induction S using decodePairs.induct generalizing k with
  | case1 => simp at h0
  | case2 => simp at h1
  | case3 c0 c1 rest ih =>
    cases k with
    | zero =>
      cases h0
      cases h1
      rfl
    | succ k => exact ih h0 h1

/-! ### The adapter's step -/

/-- The adapter after a pair `p`, for every contents of the block's table. -/
def Adapter.take (a : Adapter) (p : Pair) : Adapter :=
  { driven := (a.driven.present p).emit (decodeWith a.driven.block.rrt p)
    stream := a.stream
    offset := a.offset + 2
    out := a.out ++ [decodeWith a.driven.block.rrt p] }

@[simp] theorem Adapter.take_driven_block (a : Adapter) (p : Pair) :
    (a.take p).driven.block = a.driven.block := rfl
@[simp] theorem Adapter.take_stream (a : Adapter) (p : Pair) : (a.take p).stream = a.stream := rfl
@[simp] theorem Adapter.take_offset (a : Adapter) (p : Pair) :
    (a.take p).offset = a.offset + 2 := rfl
theorem Adapter.take_out (a : Adapter) (p : Pair) :
    (a.take p).out = a.out ++ [decodeWith a.driven.block.rrt p] := rfl

theorem Adapter.take_out_of_tableOk {a : Adapter} (ha : a.driven.TableOk) (p : Pair) :
    (a.take p).out = a.out ++ [decode p] := by
  rw [Adapter.take_out, ha, decode]

/-- Where two bytes are left the adapter takes them as a pair: the block never faults (R69). -/
theorem Adapter.step_eq_take {a : Adapter} {b0 b1 : Byte} (h0 : a.stream[a.offset]? = some b0)
    (h1 : a.stream[a.offset + 1]? = some b1) : a.step = .ok (a.take { b0 := b0, b1 := b1 }) := by
  simp only [Adapter.step, h0, h1, step_eq_next_emit]
  rfl

theorem Adapter.step_at_last_byte {a : Adapter} (h : a.offset + 1 = a.stream.length) :
    a.step = .error (.trailingByte a.stream.length) := by
  have h0 : a.offset < a.stream.length := by omega
  simp only [Adapter.step, List.getElem?_eq_getElem h0, List.getElem?_eq_none h.ge]

/-- A step that answers is past the end, or takes a whole pair. -/
theorem Adapter.step_cases {a b : Adapter} (h : a.step = .ok b) :
    (a.stream.length ≤ a.offset ∧ b = a) ∨
    (a.offset + 1 < a.stream.length ∧ ∃ p, b = a.take p) := by
  obtain hend | hlast | hpair : a.stream.length ≤ a.offset ∨ a.offset + 1 = a.stream.length ∨
      a.offset + 1 < a.stream.length := by omega
  · rw [Adapter.step_past_end hend] at h
    cases h
    exact Or.inl ⟨hend, rfl⟩
  · rw [Adapter.step_at_last_byte hlast] at h
    cases h
  · have h0 := List.getElem?_eq_getElem (Nat.lt_of_succ_lt hpair)
    have h1 := List.getElem?_eq_getElem hpair
    rw [Adapter.step_eq_take h0 h1] at h
    cases h
    exact Or.inr ⟨hpair, _, rfl⟩

/-! ### The adapter's start and run -/

theorem Adapter.start_of_even {S : List Byte} (h : S.length % 2 = 0) (s : State) :
    Adapter.start S s = .ok { driven := s, stream := S, offset := 0, out := [] } :=
  if_neg (by omega)

theorem Adapter.start_offset {S : List Byte} {s : State} {a : Adapter}
    (h : Adapter.start S s = .ok a) : a.offset = 0 := by
  unfold Adapter.start at h
  split at h
  · cases h
  · cases h
    rfl

theorem Adapter.run_succ_of_step {a b : Adapter} (k : Nat) (h : a.step = .ok b) :
    Adapter.run (k + 1) a = Adapter.run k b := by
  rw [Adapter.run, h]

/-- The run over what is left of the stream, from any offset: it collects the decodes of the rest
after the values it had. -/
theorem Adapter.run_rest {rest : List Byte} {a : Adapter} (ha : a.driven.TableOk)
    (hrest : a.stream.drop a.offset = rest) (heven : rest.length % 2 = 0) :
    ∃ b, Adapter.run (rest.length / 2) a = .ok b ∧ b.out = a.out ++ decodePairs rest ∧
      b.offset = a.offset + rest.length ∧ b.driven.block = a.driven.block := by
  induction rest using decodePairs.induct generalizing a with
  | case1 => exact ⟨a, rfl, (List.append_nil _).symm, rfl, rfl⟩
  | case2 => simp at heven
  | case3 b0 b1 rest ih =>
    have h0 : a.stream[a.offset]? = some b0 := by
      rw [← Nat.add_zero a.offset, ← List.getElem?_drop, hrest]
      rfl
    have h1 : a.stream[a.offset + 1]? = some b1 := by
      rw [← List.getElem?_drop, hrest]
      rfl
    have hdrop : (a.take { b0 := b0, b1 := b1 }).stream.drop (a.offset + 2) = rest := by
      rw [Adapter.take_stream, ← List.drop_drop, hrest]
      rfl
    have hlen : (b0 :: b1 :: rest).length = rest.length + 2 := rfl
    obtain ⟨b, hrun, hout, hoffset, hblock⟩ :=
      ih (a := a.take { b0 := b0, b1 := b1 }) ha hdrop (by omega)
    refine ⟨b, ?_, ?_, ?_, hblock⟩
    · rw [hlen, Nat.add_div_right _ two_pos,
        Adapter.run_succ_of_step _ (Adapter.step_eq_take h0 h1), hrun]
    · rw [hout, Adapter.take_out_of_tableOk ha, decodePairs_cons_cons, List.append_assoc,
        List.singleton_append]
    · rw [hoffset, Adapter.take_offset, hlen]
      omega

/-! ## The obligations on streams -/

/-- Settles O24: a 16-bit word is below `2 ^ 16`, and its view as a pair gives the pair back. -/
theorem tableWordIsByteZeroFirst : Obligations.TableWordIsByteZeroFirst := by
  unfold Obligations.TableWordIsByteZeroFirst
  intro p
  rw [← Pair.toWord, decodeTableWord_of_le le_rfl, Pair.ofTableWord_of_lt p.toWord_lt,
    Pair.ofWord_toWord]

/-- Settles O28, by induction on the stream's pairs. -/
theorem streamDecodesItsPairsInOrder : Obligations.StreamDecodesItsPairsInOrder := by
  unfold Obligations.StreamDecodesItsPairsInOrder
  exact ⟨fun _ hodd => decodeStream_of_odd hodd, fun S heven =>
    ⟨decodePairs S, decodeStream_of_even heven, length_decodePairs S,
      fun _ _ _ h0 h1 => getElem?_decodePairs h0 h1⟩⟩

/-- Settles O29: a step that answers is past the end or takes a whole pair. -/
theorem adapterOffsetAdvancesByTwo : Obligations.AdapterOffsetAdvancesByTwo := by
  unfold Obligations.AdapterOffsetAdvancesByTwo
  refine ⟨fun _ _ _ h => Adapter.start_offset h, fun a b h => ?_⟩
  obtain hend | ⟨hpair, p, rfl⟩ := Adapter.step_cases h
  · exact Or.inl hend
  · exact Or.inr ⟨hpair, a.take_offset p, a.take_stream p, _, a.take_out p⟩

/-- Settles O30: at the start the rest of the stream is the whole of it. -/
theorem adapterDrivingTheBlockComputesTheStream :
    Obligations.AdapterDrivingTheBlockComputesTheStream := by
  unfold Obligations.AdapterDrivingTheBlockComputesTheStream
  intro S s out hs hdecode
  obtain ⟨heven, rfl⟩ := decodeStream_ok hdecode
  have hstart := Adapter.start_of_even heven s
  obtain ⟨b, hrun, hout, hoffset, hblock⟩ := Adapter.run_rest
    (a := { driven := s, stream := S, offset := 0, out := [] }) hs List.drop_zero heven
  exact ⟨_, b, hstart, hrun, hout, hoffset.trans (Nat.zero_add _), hblock⟩

end Machine
end Sys2Proof

/-! ## The pattern of a pair and the reference encoder (30_encoding.md) -/

namespace Sys2Proof

/-! ### The pattern `xxxxxxxw xxsssddd` -/

/-- Appended words of equal widths are equal part by part. -/
theorem append_eq_append_iff {m n : Nat} {x x' : BitVec m} {y y' : BitVec n} :
    x ++ y = x' ++ y' ↔ x = x' ∧ y = y' := by
  constructor
  · intro h
    have hleft := congrArg (BitVec.extractLsb' n m) h
    have hright := congrArg (BitVec.extractLsb' 0 n) h
    rw [BitVec.extractLsb'_append_eq_left, BitVec.extractLsb'_append_eq_left] at hleft
    rw [BitVec.extractLsb'_append_eq_right, BitVec.extractLsb'_append_eq_right] at hright
    exact ⟨hleft, hright⟩
  · rintro ⟨rfl, rfl⟩
    rfl

/-- R38: byte 1 ends in the two codes, the source's first. -/
theorem codes_append (b : Byte) :
    b.extractLsb' 3 3 ++ b.extractLsb' 0 3 = b.extractLsb' 0 6 :=
  BitVec.extractLsb'_append_extractLsb'_eq_extractLsb' rfl

section
variable (w : WidthFlag) (src dst : Code) (u0 v0 : BitVec 7) (u1 v1 : BitVec 2)

theorem Pair.ofFields_b0 : (Pair.ofFields w src dst u0 u1).b0 = u0 ++ w := rfl
theorem Pair.ofFields_b1 : (Pair.ofFields w src dst u0 u1).b1 = u1 ++ src ++ dst := rfl

@[simp] theorem Pair.ofFields_b0_w : (Pair.ofFields w src dst u0 u1).b0.extractLsb' 0 1 = w :=
  BitVec.extractLsb'_append_eq_right

@[simp] theorem Pair.ofFields_b0_unread :
    (Pair.ofFields w src dst u0 u1).b0.extractLsb' 1 7 = u0 :=
  BitVec.extractLsb'_append_eq_left

@[simp] theorem Pair.ofFields_b1_dst : (Pair.ofFields w src dst u0 u1).b1.extractLsb' 0 3 = dst :=
  BitVec.extractLsb'_append_eq_right

@[simp] theorem Pair.ofFields_b1_src :
    (Pair.ofFields w src dst u0 u1).b1.extractLsb' 3 3 = src := by
  rw [Pair.ofFields_b1, BitVec.extractLsb'_append_eq_of_le le_rfl]
  exact BitVec.extractLsb'_append_eq_right

@[simp] theorem Pair.ofFields_b1_unread :
    (Pair.ofFields w src dst u0 u1).b1.extractLsb' 6 2 = u1 := by
  rw [Pair.ofFields_b1, BitVec.extractLsb'_append_eq_of_le (by decide)]
  exact BitVec.extractLsb'_append_eq_left

theorem Pair.ofFields_unread_inj :
    Pair.ofFields w src dst u0 u1 = Pair.ofFields w src dst v0 v1 ↔ u0 = v0 ∧ u1 = v1 := by
  rw [Pair.ofFields, Pair.ofFields, Pair.mk.injEq, BitVec.append_left_inj, BitVec.append_left_inj,
    BitVec.append_left_inj]

end

/-- Every pair has the pattern, with its own bits in the places. -/
theorem Pair.ofFields_wires (p : Pair) :
    Pair.ofFields (p.b0.extractLsb' 0 1) (p.b1.extractLsb' 3 3) (p.b1.extractLsb' 0 3)
      (p.b0.extractLsb' 1 7) (p.b1.extractLsb' 6 2) = p := by
  have hb0 : p.b0.extractLsb' 1 7 ++ p.b0.extractLsb' 0 1 = p.b0 :=
    BitVec.extractLsb'_append_extractLsb'
  have hhigh : p.b1.extractLsb' 6 2 ++ p.b1.extractLsb' 3 3 = p.b1.extractLsb' 3 5 :=
    BitVec.extractLsb'_append_extractLsb'_eq_extractLsb' rfl
  have hb1 : p.b1.extractLsb' 3 5 ++ p.b1.extractLsb' 0 3 = p.b1 :=
    BitVec.extractLsb'_append_extractLsb'
  rw [Pair.ofFields, hhigh, hb0, hb1]

/-! ### The decode of a pair by its fields -/

/-- R54: no two cells hold one register. -/
theorem rrt_inj {c c' : Code} {w w' : WidthFlag} :
    rrt rrtContents c w = rrt rrtContents c' w' ↔ c = c' ∧ w = w' := by
  constructor
  · intro h
    have hpos := congrArg Register.position h
    rwa [position_rrt, position_rrt, Prod.mk.injEq] at hpos
  · rintro ⟨rfl, rfl⟩
    rfl

/-- R44: one Move for each triple of width flag and codes. -/
theorem mov_rrt_inj {w w' : WidthFlag} {src src' dst dst' : Code} :
    Instr.mov (rrt rrtContents dst w) (rrt rrtContents src w) =
        .mov (rrt rrtContents dst' w') (rrt rrtContents src' w') ↔
      w = w' ∧ src = src' ∧ dst = dst' := by
  rw [Instr.mov.injEq, rrt_inj, rrt_inj]
  constructor
  · rintro ⟨⟨hdst, hw⟩, hsrc, -⟩
    exact ⟨hw, hsrc, hdst⟩
  · rintro ⟨hw, hsrc, hdst⟩
    exact ⟨⟨hdst, hw⟩, hsrc, hw⟩

/-- R60: the decode of a pair, by bit position. -/
theorem decode_eq_wires (p : Pair) : decode p =
    .mov (rrt rrtContents (p.b1.extractLsb' 0 3) (p.b0.extractLsb' 0 1))
      (rrt rrtContents (p.b1.extractLsb' 3 3) (p.b0.extractLsb' 0 1)) := by
  rw [decode, decodeWith, extract_eq_wires]

@[simp] theorem decode_ofFields (w : WidthFlag) (src dst : Code) (u0 : BitVec 7) (u1 : BitVec 2) :
    decode (Pair.ofFields w src dst u0 u1) =
      .mov (rrt rrtContents dst w) (rrt rrtContents src w) := by
  rw [decode_eq_wires, Pair.ofFields_b0_w, Pair.ofFields_b1_dst, Pair.ofFields_b1_src]

/-- A pair decodes to a triple's Move exactly when the triple stands in its places. -/
theorem decode_eq_mov_rrt_iff (w : WidthFlag) (src dst : Code) (p : Pair) :
    decode p = .mov (rrt rrtContents dst w) (rrt rrtContents src w) ↔
      p = Pair.ofFields w src dst (p.b0.extractLsb' 1 7) (p.b1.extractLsb' 6 2) := by
  constructor
  · intro h
    rw [decode_eq_wires, mov_rrt_inj] at h
    obtain ⟨rfl, rfl, rfl⟩ := h
    exact p.ofFields_wires.symm
  · intro h
    rw [h, decode_ofFields]

/-! ### The width class of a register -/

/-- R15, R19: the column of a register is its width class. -/
theorem column_eq_ite_width (r : Register) :
    r.position.2 = if r.width = .word then 1 else 0 := by
  cases r <;> rfl

theorem width_eq_ite_column (r : Register) :
    r.width = if r.position.2 = 0 then .byte else .word := by
  cases r <;> rfl

theorem width_rrt (code : Code) (w : WidthFlag) :
    (rrt rrtContents code w).width = if w = 0 then .byte else .word := by
  rw [width_eq_ite_column, position_rrt]

theorem width_rrt_eq_word_iff (code : Code) (w : WidthFlag) :
    (rrt rrtContents code w).width = .word ↔ w = 1 := by
  rw [width_eq_word_iff_regId_top, regId_rrt, BitVec.extractLsb'_append_eq_left]

/-- R42, R49: registers of one width stand in cells of one column. -/
theorem exists_cells_of_width_eq {d s : Register} (h : d.width = s.width) :
    ∃ (w : WidthFlag) (dc sc : Code),
      d = rrt rrtContents dc w ∧ s = rrt rrtContents sc w := by
  have hcolumn : d.position.2 = s.position.2 := by
    rw [column_eq_ite_width, column_eq_ite_width, h]
  refine ⟨d.position.2, d.position.1, s.position.1, (rrt_position d).symm, ?_⟩
  rw [hcolumn, rrt_position]

/-! ### The reference encoder -/

theorem encode_of_width_ne {d s : Register} (h : d.width ≠ s.width) :
    encode (.mov d s) = .error (.mixedWidth d s) := if_pos h

/-- R49: byte 0 is `1000100w`, `w` the column of the registers. -/
theorem encode_b0 (r : Register) :
    (0b10001000#8 ||| (if r.width = .word then 1 else 0)) = 0b1000100#7 ++ r.position.2 := by
  rw [column_eq_ite_width]
  split <;> rfl

/-- R49: byte 1 is `11sssddd`. -/
theorem encode_b1 (sc dc : Code) :
    0b11000000#8 ||| (sc.setWidth 8 <<< 3) ||| dc.setWidth 8 = 0b11#2 ++ sc ++ dc := by
  have h := BitVec.setWidth_append_append_eq_shiftLeft_setWidth_or (w''' := 8)
    (b := 0b11#2) (b' := sc) (b'' := dc)
  rw [BitVec.setWidth_eq] at h
  exact h.symm

/-- R49: the encoder puts the rows and the column in the places of the canonical pattern. -/
theorem encode_of_width_eq {d s : Register} (h : d.width = s.width) :
    encode (.mov d s) =
      .ok (Pair.ofFields d.position.2 s.position.1 d.position.1 0b1000100#7 0b11#2) := by
  rw [Pair.ofFields, ← encode_b0, ← encode_b1]
  exact if_neg (not_not_intro h)

theorem encode_mov_rrt (w : WidthFlag) (dc sc : Code) :
    encode (.mov (rrt rrtContents dc w) (rrt rrtContents sc w)) =
      .ok (Pair.ofFields w sc dc 0b1000100#7 0b11#2) := by
  have hwidth : (rrt rrtContents dc w).width = (rrt rrtContents sc w).width := by
    rw [width_rrt, width_rrt]
  rw [encode_of_width_eq hwidth, position_rrt, position_rrt]

/-- R46: a pair is canonical exactly when its unread bits are `1000100` and `11`. -/
theorem canonical_ofFields_iff (w : WidthFlag) (src dst : Code) (u0 : BitVec 7) (u1 : BitVec 2) :
    (Pair.ofFields w src dst u0 u1).Canonical ↔ u0 = 0b1000100#7 ∧ u1 = 0b11#2 := by
  have hb0 : 0x88#8 ||| ((u0 ++ w) &&& 0b00000001#8) = 0b1000100#7 ++ w := by
    calc 0x88#8 ||| ((u0 ++ w) &&& 0b00000001#8)
        = (0b1000100#7 ++ 0#1) ||| ((u0 ++ w) &&& (0#7 ++ BitVec.allOnes 1)) := rfl
      _ = 0b1000100#7 ++ w := by
        rw [BitVec.and_append, BitVec.or_append, BitVec.and_zero, BitVec.or_zero,
          BitVec.and_allOnes, BitVec.zero_or]
  rw [Pair.Canonical, Pair.ofFields_b1_unread, Pair.ofFields_b0, hb0, BitVec.append_left_inj]

/-- The encode of a decode keeps the read bits and sets the unread ones. -/
theorem encode_decode_ofFields (w : WidthFlag) (src dst : Code) (u0 : BitVec 7) (u1 : BitVec 2) :
    encode (decode (Pair.ofFields w src dst u0 u1)) =
      .ok (Pair.ofFields w src dst 0b1000100#7 0b11#2) := by
  rw [decode_ofFields, encode_mov_rrt]

/-! ### The extractor's masks as numbers -/

/-- Cutting a byte to `k` bits keeps its value where the value has `k` bits. -/
theorem toNat_setWidth_of_toNat_lt {b : Byte} {k : Nat} (h : b.toNat < 2 ^ k) :
    (b.setWidth k).toNat = b.toNat := by
  rw [BitVec.toNat_setWidth, Nat.mod_eq_of_lt h]

/-- A masked byte is no greater than its mask. -/
theorem toNat_and_lt_of_mask_lt (b : Byte) {mask : Byte} {n : Nat} (h : mask.toNat < n) :
    (b &&& mask).toNat < n := by
  rw [BitVec.toNat_and]
  exact Nat.and_le_right.trans_lt h

theorem extract_w_toNat (p : Pair) :
    (extract p).w.toNat = (p.b0 &&& 0b00000001#8).toNat :=
  toNat_setWidth_of_toNat_lt (toNat_and_lt_of_mask_lt p.b0 (by decide))

theorem extract_dstCode_toNat (p : Pair) :
    (extract p).dstCode.toNat = (p.b1 &&& 0b00000111#8).toNat :=
  toNat_setWidth_of_toNat_lt (toNat_and_lt_of_mask_lt p.b1 (by decide))

/-- R41: the mask keeps six bits, so the shifted byte has three. -/
theorem extract_srcCode_toNat (p : Pair) :
    (extract p).srcCode.toNat = ((p.b1 &&& 0b00111000#8) >>> 3).toNat := by
  have hmask : (p.b1 &&& 0b00111000#8).toNat < 64 := toNat_and_lt_of_mask_lt p.b1 (by decide)
  refine toNat_setWidth_of_toNat_lt ?_
  rw [BitVec.toNat_ushiftRight, Nat.shiftRight_eq_div_pow]
  omega

/-! ## The obligations on the encoding -/

/-- Settles O27: a well-formed Move is that of two cells of one column, and a pair is its fields in
the pattern, of which the encoder sets the unread bits. -/
theorem encodeDecodeRoundTrip : Obligations.EncodeDecodeRoundTrip := by
  unfold Obligations.EncodeDecodeRoundTrip
  refine ⟨fun i hi => ?_, fun p => ?_, fun p => ?_⟩
  · cases i with
    | mov d s =>
      obtain ⟨w, dc, sc, rfl, rfl⟩ := exists_cells_of_width_eq hi
      exact ⟨_, encode_mov_rrt w dc sc, decode_ofFields _ _ _ _ _⟩
  · rw [← p.ofFields_wires]
    exact ⟨_, encode_decode_ofFields _ _ _ _ _, by rw [decode_ofFields, decode_ofFields]⟩
  · rw [← p.ofFields_wires, encode_decode_ofFields, canonical_ofFields_iff, Except.ok.injEq,
      Pair.ofFields_unread_inj]
    exact and_congr eq_comm eq_comm

/-- Settles O18: the masks cut the fields, each kept as a number since its mask bounds it. -/
theorem extractCutsTheThreeFields : Obligations.ExtractCutsTheThreeFields := by
  unfold Obligations.ExtractCutsTheThreeFields
  exact ⟨extract_eq_wires,
    fun p => ⟨extract_w_toNat p, extract_dstCode_toNat p, extract_srcCode_toNat p⟩,
    fun p => ⟨Nat.le_of_lt_succ (extract p).w.isLt, Nat.le_of_lt_succ (extract p).dstCode.isLt,
      Nat.le_of_lt_succ (extract p).srcCode.isLt⟩,
    fun p code => width_rrt code (extract p).w, rfl⟩

/-- Settles O22: a decode determines the width flag and both codes, which are the read bits of the
pair. -/
theorem unreadBitsDoNotMatter : Obligations.UnreadBitsDoNotMatter := by
  unfold Obligations.UnreadBitsDoNotMatter
  intro p q
  rw [decode_eq_wires, decode_eq_wires, mov_rrt_inj, ← codes_append, ← codes_append,
    append_eq_append_iff]

/-- Settles O23: a Move determines its triple, and the pairs of a triple are the pattern with it in
place. -/
theorem everyClassHas512Pairs : Obligations.EveryClassHas512Pairs := by
  unfold Obligations.EveryClassHas512Pairs
  exact ⟨decode_eq_wires, fun _ _ _ _ _ _ => mov_rrt_inj.mp, decode_eq_mov_rrt_iff,
    fun w src dst u0 u1 => ⟨decode_ofFields w src dst u0 u1, rfl, rfl,
      Pair.ofFields_b0_unread w src dst u0 u1, Pair.ofFields_b1_unread w src dst u0 u1⟩⟩

/-- Settles O26: registers of one width are two cells of one column, which the encoder writes in
place. -/
theorem encoderWritesTheCanonicalBytes : Obligations.EncoderWritesTheCanonicalBytes := by
  unfold Obligations.EncoderWritesTheCanonicalBytes
  refine ⟨fun d s => encode_of_width_ne, encode_mov_rrt, fun d s h => ?_⟩
  obtain ⟨w, dc, sc, rfl, rfl⟩ := exists_cells_of_width_eq h
  exact ⟨w, dc, sc, rfl, rfl, width_rrt_eq_word_iff dc w⟩

end Sys2Proof

/-! ## The register resolution table's checked read (40_register_resolution_table.md) -/

namespace Sys2Proof

/-! ### The checked read -/

section
variable (table : Table) {code w : Nat}

/-- R53, in range: the answer is the cell. -/
theorem rrtChecked_of_lt (hc : code < 8) (hw : w < 2) :
    rrtChecked table code w = .ok table[code][w] := dif_pos ⟨hc, hw⟩

/-- R53, out of range: nothing is wrapped. -/
theorem rrtChecked_of_gt (h : code > 7 ∨ w > 1) :
    rrtChecked table code w = .error { code := code, w := w } := dif_neg (by omega)

end

/-- R71: the destination is read first, and where it answers the source's fault is the decode's. -/
theorem moveOfCodes_of_source_error {table : Table} {dst src w : Nat} {d : Register}
    {v : InvariantViolation} (hdst : rrtChecked table dst w = .ok d)
    (hsrc : rrtChecked table src w = .error v) : moveOfCodes table dst src w = .error v := by
  simp only [moveOfCodes, hdst, hsrc]

/-! ## The obligations on the table -/

/-- Settles O10, by the two sides of the range check. -/
theorem checkedReadRejectsOutOfRange : Obligations.CheckedReadRejectsOutOfRange := by
  unfold Obligations.CheckedReadRejectsOutOfRange
  exact ⟨fun table _ _ => rrtChecked_of_lt table, fun table _ _ => rrtChecked_of_gt table⟩

/-- Settles O12: the destination read is in range and answers, the source read is not. -/
theorem sourceReadFaultIsReported : Obligations.SourceReadFaultIsReported := by
  unfold Obligations.SourceReadFaultIsReported
  intro table dst src w hdst hw hsrc
  exact moveOfCodes_of_source_error
    (rrtChecked_of_lt table (Nat.lt_succ_of_le hdst) (Nat.lt_succ_of_le hw))
    (rrtChecked_of_gt table (Or.inl hsrc))

/-- Settles O15: a read in range answers, a cell's register has that cell as its position, and its
width class is its column. -/
theorem tableIsCompleteAndInjective : Obligations.TableIsCompleteAndInjective := by
  unfold Obligations.TableIsCompleteAndInjective
  refine ⟨fun code w hc hw => ?_, fun _ _ _ _ => rrt_inj, fun code => ⟨?_, ?_⟩⟩
  · exact ⟨_, rrtChecked_of_lt rrtContents (Nat.lt_succ_of_le hc) (Nat.lt_succ_of_le hw)⟩
  · exact width_rrt code 0
  · exact width_rrt code 1

end Sys2Proof

/-! ## The field extractor's arithmetic and checked form (41_opcode_field_extractor.md) -/

namespace Sys2Proof

/-- R58: a field of `len` bits from bit `start` up is a remainder of a quotient. -/
theorem toNat_extractLsb'_eq_div_mod (b : Byte) (start len : Nat) :
    (b.extractLsb' start len).toNat = b.toNat / 2 ^ start % 2 ^ len := by
  rw [BitVec.extractLsb'_toNat, Nat.shiftRight_eq_div_pow]

/-- A field from bit 0 up is a remainder. -/
theorem toNat_extractLsb'_zero_eq_mod (b : Byte) (len : Nat) :
    (b.extractLsb' 0 len).toNat = b.toNat % 2 ^ len := by
  rw [toNat_extractLsb'_eq_div_mod, Nat.pow_zero, Nat.div_one]

/-! ## The obligations on the extractor -/

/-- Settles O13: the widened 3-bit and 1-bit signals are in the checked read's range, so both reads
answer what the ports read. -/
theorem checkedDecodeEqualsPortDecode : Obligations.CheckedDecodeEqualsPortDecode :=
  decodeChecked_eq_ok_decodeWith

/-- Settles O19: the extracted fields are bits 0, 2:0 and 5:3, each read as a number. -/
theorem extractedFieldsAsArithmetic : Obligations.ExtractedFieldsAsArithmetic := by
  unfold Obligations.ExtractedFieldsAsArithmetic
  intro p
  rw [extract_eq_wires]
  exact ⟨toNat_extractLsb'_zero_eq_mod p.b0 1, toNat_extractLsb'_zero_eq_mod p.b1 3,
    toNat_extractLsb'_eq_div_mod p.b1 3 3⟩

end Sys2Proof

/-! ## The decode and the step that runs it (42_instruction_decoder.md) -/

namespace Sys2Proof

/-! ### The two registers of one decode -/

/-- R60: what a decode to `Move(destination, source)` says of the two registers. -/
theorem registers_of_decode {p : Pair} {destination source : Register}
    (h : decode p = .mov destination source) :
    destination = rrt rrtContents (p.b1.extractLsb' 0 3) (p.b0.extractLsb' 0 1) ∧
    source = rrt rrtContents (p.b1.extractLsb' 3 3) (p.b0.extractLsb' 0 1) := by
  rw [decode_eq_wires] at h
  cases h
  exact ⟨rfl, rfl⟩

/-- R60: codes 4 to 7 select the high halves in the byte column and SP, BP, SI, DI in the word one. -/
theorem rrt_mem_of_four_le (code : Code) (h : 4 ≤ code.toNat) :
    rrt rrtContents code 0 ∈ [Register.AH, .CH, .DH, .BH] ∧
    rrt rrtContents code 1 ∈ [Register.SP, .BP, .SI, .DI] := by
  revert code
  decide

/-- R66: the pair with the codes exchanged decodes to the Move with the registers exchanged. -/
theorem decode_of_swapped_codes {p q : Pair} {destination source : Register}
    (hw : q.b0.extractLsb' 0 1 = p.b0.extractLsb' 0 1)
    (hdst : q.b1.extractLsb' 0 3 = p.b1.extractLsb' 3 3)
    (hsrc : q.b1.extractLsb' 3 3 = p.b1.extractLsb' 0 3)
    (h : decode p = .mov destination source) : decode q = .mov source destination := by
  obtain ⟨rfl, rfl⟩ := registers_of_decode h
  rw [decode_eq_wires, hw, hdst, hsrc]

/-- R44: source codes that differ show in the value, since a Move determines its codes. -/
theorem decode_ne_of_source_code_ne {p q : Pair}
    (hne : q.b1.extractLsb' 3 3 ≠ p.b1.extractLsb' 3 3) : decode q ≠ decode p := by
  intro heq
  rw [decode_eq_wires, decode_eq_wires, mov_rrt_inj] at heq
  obtain ⟨-, hsrc, -⟩ := heq
  exact hne hsrc

/-- A table word that decodes to `i` stands for a pair that decodes to `i`. -/
theorem decode_of_decodeTableWord {nbits w : Nat} {i : Instr}
    (h : decodeTableWord nbits w = some i) : decode (Pair.ofTableWord nbits w) = i := by
  unfold decodeTableWord at h
  split at h
  · exact Option.some.inj h
  · cases h

namespace Machine

/-! ### The step runs the decoded instruction -/

theorem exec_eq_next_emit (i : Instr) (s : State) : exec i s = .next (s.emit i) := by
  cases i with
  | mov d r => exact exec_mov d r s

/-- With the table intact nothing is added around `exec` of the decoded instruction. -/
theorem step_eq_exec_of_decode {s : State} {i : Instr} (hs : s.TableOk) (h : decode s.pair = i) :
    step s = exec i s := by
  rw [step_of_tableOk hs, h, exec_eq_next_emit]

@[simp] theorem State.withFetchWord_block (s : State) (nbits w : Nat) :
    (s.withFetchWord nbits w).block = s.block := rfl

@[simp] theorem State.withFetchWord_pair (s : State) (nbits w : Nat) :
    (s.withFetchWord nbits w).pair = Pair.ofTableWord nbits w := rfl

/-! ### The ports read the block and the pair alone -/

section
variable {s s' : State} (hblock : s.block = s'.block) (hpair : s.pair = s'.pair)
include hblock hpair

theorem State.outDst_congr : s.outDst = s'.outDst := by
  rw [State.outDst, State.outDst, hblock, hpair]

theorem State.outSrc_congr : s.outSrc = s'.outSrc := by
  rw [State.outSrc, State.outSrc, hblock, hpair]

end

/-! ## The obligations on the decoder -/

/-- Settles O6: a step emits what the block makes of the pair and leaves the ports, which read the
block and the pair. -/
theorem instancesWithOnePairAgree : Obligations.InstancesWithOnePairAgree := by
  unfold Obligations.InstancesWithOnePairAgree
  intro s s' hblock hpair
  refine ⟨_, _, step_eq_next_emit s, step_eq_next_emit s', ?_, ?_, ?_⟩
  · rw [State.emit_result, State.emit_result, hblock, hpair]
  · rw [State.emit_outDst, State.emit_outDst, State.outDst_congr hblock hpair]
  · rw [State.emit_outSrc, State.emit_outSrc, State.outSrc_congr hblock hpair]

/-- Settles O20: the two cells are of one column, that of byte 0 bit 0. -/
theorem decodedRegistersShareAWidth : Obligations.DecodedRegistersShareAWidth := by
  unfold Obligations.DecodedRegistersShareAWidth
  intro p destination source h
  obtain ⟨rfl, rfl⟩ := registers_of_decode h
  exact ⟨by rw [width_rrt, width_rrt], width_rrt_eq_word_iff _ _⟩

/-- Settles O21: the swapped pair reads the same two cells in the other order; the rule's pairs are
written by their fields. -/
theorem swappedCodesSwapTheRegisters : Obligations.SwappedCodesSwapTheRegisters := by
  unfold Obligations.SwappedCodesSwapTheRegisters
  refine ⟨fun p q destination source hw hdst hsrc h => ?_, ?_, ?_⟩
  · refine ⟨decode_of_swapped_codes hw hdst hsrc h, fun hne => ?_⟩
    exact decode_ne_of_source_code_ne (by rwa [hsrc])
  · exact decode_ofFields 1 0b011 0b001 0b1000100 0b11
  · exact decode_ofFields 1 0b001 0b011 0b1000100 0b11

/-- Settles O25: the placed word is the presented pair, and placing leaves the table. -/
theorem placedWordRunsNext : Obligations.PlacedWordRunsNext := by
  unfold Obligations.PlacedWordRunsNext
  intro s nbits w i hs h
  have hplaced : (s.withFetchWord nbits w).TableOk := by
    rwa [State.TableOk, State.withFetchWord_block]
  apply step_eq_exec_of_decode hplaced
  rw [State.withFetchWord_pair]
  exact decode_of_decodeTableWord h

/-- Settles O34: the decode by the wires; a cell's identifier is `{w, code}`; the rule's corner cases
are written by their fields. -/
theorem decodeReadsTwoCellsWithOneWidthFlag :
    Obligations.DecodeReadsTwoCellsWithOneWidthFlag := by
  unfold Obligations.DecodeReadsTwoCellsWithOneWidthFlag
  refine ⟨fun p => ?_, rrt_mem_of_four_le, decodeChecked_eq_ok_decodeWith rrtContents,
    ?_, ?_, ?_, ?_, ?_, ?_⟩
  · exact ⟨_, _, decode_eq_wires p, rfl, rfl, regId_rrt _ _, regId_rrt _ _, fun h => by rw [h]⟩
  · exact decode_ofFields 0 0b101 0b101 0b1000100 0b11
  · exact decode_ofFields 1 0b111 0b111 0b1111111 0b00
  · exact decode_ofFields 1 0b111 0b111 0b1000100 0b11
  · exact decode_ofFields 0 0b000 0b000 0b0000000 0b00
  · exact decode_ofFields 1 0b111 0b111 0b1111111 0b11
  · exact decode_ofFields 1 0b011 0b001 0b1000100 0b11

/-- Settles O1: the step emits the decode, and so does `exec` of it. -/
theorem stepRunsTheDecodedInstruction : Obligations.StepRunsTheDecodedInstruction := by
  unfold Obligations.StepRunsTheDecodedInstruction
  exact fun _ _ => step_eq_exec_of_decode

/-- Settles O17: each pair is the pattern of R38 with its fields in their places. -/
theorem specPairsDecodeAsWritten : Obligations.SpecPairsDecodeAsWritten := by
  unfold Obligations.SpecPairsDecodeAsWritten
  refine ⟨?_, ?_, ?_, ?_, ?_, ?_, ?_⟩
  · exact decode_ofFields 1 0b011 0b001 0b1000100 0b11
  · exact decode_ofFields 1 0b011 0b110 0b1000100 0b11
  · exact decode_ofFields 0 0b100 0b101 0b1000100 0b11
  · exact decode_ofFields 1 0b011 0b001 0b1000101 0b11
  · exact decode_ofFields 1 0b011 0b001 0b0000000 0b00
  · exact decode_ofFields 0 0b000 0b000 0b0000000 0b00
  · exact decode_ofFields 1 0b111 0b111 0b1111111 0b11

end Machine
end Sys2Proof

/-! ## The one fault (60_exceptions.md) -/

namespace Sys2Proof

/-- R71: the destination is read first, so its fault is the decode's, whatever the source read would
answer. -/
theorem moveOfCodes_of_destination_error {table : Table} {dst w : Nat} {v : InvariantViolation}
    (src : Nat) (hdst : rrtChecked table dst w = .error v) :
    moveOfCodes table dst src w = .error v := by
  simp only [moveOfCodes, hdst]

/-- R69: the 3-bit and 1-bit fields of a pair are in the checked read's range. -/
theorem decodeChecked_ne_error (table : Table) (p : Pair) (v : InvariantViolation) :
    decodeChecked table p ≠ .error v := by
  rw [decodeChecked_eq_ok_decodeWith]
  nofun

namespace Machine

/-- R69: a step is safe in every state, with the table intact or not. -/
theorem safeStep (s : State) : SafeStep s := ⟨_, step_eq_next_emit s⟩

theorem step_ne_fault (s : State) (f : Fault) : step s ≠ .fault f := by
  obtain ⟨t, ht⟩ := safeStep s
  rw [ht]
  nofun

/-- Where no step stops the machine, no run does. -/
theorem exists_run_eq_next {M : Host.Core} (hstep : ∀ s, ∃ t, M.step s = .next t) (k : Nat)
    (s : M.State) : ∃ t, M.run k s = .next t := by
  induction k generalizing s with
  | zero => exact ⟨s, rfl⟩
  | succ k ih =>
    obtain ⟨t, ht⟩ := hstep s
    rw [run_succ_of_step k ht]
    exact ih t

/-! ## The obligations on the fault -/

/-- Settles O9: the fields of a pair are in range, so every step is safe, and by induction on the
number of steps every run. -/
theorem noPairReachesTheFault : Obligations.NoPairReachesTheFault := by
  unfold Obligations.NoPairReachesTheFault
  exact ⟨decodeChecked_ne_error, exists_run_eq_next (M := Sys2Proof.core) safeStep, step_ne_fault⟩

/-- Settles O11: the destination's fault is reported whether or not the source read would fault too,
and no pair makes either read fault. -/
theorem destinationReadFaultsFirst : Obligations.DestinationReadFaultsFirst := by
  unfold Obligations.DestinationReadFaultsFirst
  refine ⟨fun table code w hcode _ => rrtChecked_of_gt table (Or.inl hcode),
    fun table dst src w v _ hdst _ => ?_, fun table p => ⟨_, decodeChecked_eq_ok_decodeWith table p⟩⟩
  obtain rfl := rrtChecked_error_eq hdst
  exact moveOfCodes_of_destination_error src hdst

end Machine
end Sys2Proof

/-! ## Reset and hazards (70_reset_and_hazards.md) -/

namespace Sys2Proof.Machine

/-- R82: a step only emits, so presenting a pair after it overwrites all that the step wrote. -/
theorem present_of_step {s t : State} (h : step s = .next t) (p : Pair) :
    t.present p = s.present p := by
  obtain ⟨i, -, hexec⟩ := step_cases h
  obtain rfl := exec_cases hexec
  exact State.emit_present s p i

/-! ## The obligation on hazards -/

/-- Settles O7: presenting `p` overwrites what the step on `q` wrote, and then `q` itself. -/
theorem earlierPairLeavesNoTrace : Obligations.EarlierPairLeavesNoTrace := by
  unfold Obligations.EarlierPairLeavesNoTrace
  intro s t p q h
  have hsame : t.present p = s.present p := calc
    t.present p = (s.present q).present p := present_of_step h p
    _ = s.present p := State.present_present s q p
  exact ⟨hsame, congrArg step hsame⟩

end Sys2Proof.Machine
